-- ==== Sys2Proof/Word.lean ====
section
/-! DEFINITION. The words of the machine (00_scope.md rules R4 to R6), under their own names. -/

namespace Sys2Proof

/-- A byte of memory: 8 bits (R30). -/
abbrev Byte := BitVec 8

/-- An instruction word or a stored word: 32 bits (R70, R46). -/
abbrev Word := BitVec 32

/-- A storage address, and the program counter's value: 32 bits (R25, R30, R40). -/
abbrev Addr := BitVec 32

/-- The contents of a general register, and the sum `EA64`: 64 bits (R20, R100). -/
abbrev Reg64 := BitVec 64

/-- A register field: 5 bits naming `r0` to `r31` by number (R20, R74). -/
abbrev RegNum := BitVec 5

/-- The displacement field `D` of form D: 16 bits (R73). -/
abbrev Disp := BitVec 16

end Sys2Proof
end

