-- ==== Sys2Proof/Syntax.lean ====
section
/-! DEFINITION. The instructions in scope (00_scope.md rule R2): one constructor for each row of
spec/opcode_table.json, its operands as the encoding gives them (R71, R72). -/

namespace Sys2Proof

/-- The Store Word family. -/
inductive Instr where
  /-- `stw RS, d(RA0)`, Store Word (R101). -/
  | stw (rs ra : RegNum) (d : Disp)
  /-- `stwu RS, d(RA)`, Store Word with Update (R102). -/
  | stwu (rs ra : RegNum) (d : Disp)
  /-- `stwux RS, RA, RB`, Store Word with Update Indexed (R103). -/
  | stwux (rs ra rb : RegNum)
  /-- `stwx RS, RA0, RB`, Store Word Indexed (R104). -/
  | stwx (rs ra rb : RegNum)
  deriving DecidableEq, Repr

end Sys2Proof
end

