-- ==== Sys2Proof/WellFormed.lean ====
section
/-! DEFINITION. Which instructions are valid forms. -/

namespace Sys2Proof

/-- `RA = 0` in an update form is the one invalid form (30_encoding.md rules R74 and R80). Every other
combination of operands is legal. An invalid form still decodes, and its meaning refuses it. -/
def Instr.wellFormed : Instr → Bool
  | .stw _ _ _ => true
  | .stwu _ ra _ => ra != 0#5
  | .stwux _ ra _ => ra != 0#5
  | .stwx _ _ _ => true

end Sys2Proof
end

