-- ==== Sys2Proof/Decode.lean ====
section
/-! DEFINITION. From bytes to instructions and back, and from assembly lines to words (30_encoding.md). -/

namespace Sys2Proof

/-- Why bytes are no instruction. -/
inductive DecodeError where
  /-- The word matches none of R76 to R79 (R82, and R81 for `Rc = 1`). -/
  | notInScope (w : Word)
  /-- Fewer than the 4 bytes of an instruction (R70) are left. -/
  | truncated (bytesLeft : Nat)
  deriving DecidableEq, Repr

/-- A big-endian word from its bytes, the first at the lowest address (R52). -/
def wordOfBytes (b0 b1 b2 b3 : Byte) : Word := b0 ++ b1 ++ b2 ++ b3

/-- The bytes of a word in memory order (R52, R85: `0x9421FFF0` is `94 21 FF F0`). -/
def bytesOfWord (w : Word) : List Byte :=
  [w.extractLsb' 24 8, w.extractLsb' 16 8, w.extractLsb' 8 8, w.extractLsb' 0 8]

/-- `RS = w[25:21]` (R71, R72). -/
def fieldRS (w : Word) : RegNum := w.extractLsb' 21 5

/-- `RA = w[20:16]` (R71, R72). -/
def fieldRA (w : Word) : RegNum := w.extractLsb' 16 5

/-- `RB = w[15:11]`, form X (R72). -/
def fieldRB (w : Word) : RegNum := w.extractLsb' 11 5

/-- `D = w[15:0]`, form D (R71). -/
def fieldD (w : Word) : Disp := w.extractLsb' 0 16

/-- The opcode map (R75): a word is the instruction whose match and mask it meets. -/
def decodeWord (w : Word) : Except DecodeError Instr :=
  if w &&& 0xFC000000#32 = 0x90000000#32 then      -- R76
    .ok (.stw (fieldRS w) (fieldRA w) (fieldD w))
  else if w &&& 0xFC000000#32 = 0x94000000#32 then -- R77
    .ok (.stwu (fieldRS w) (fieldRA w) (fieldD w))
  else if w &&& 0xFC0007FF#32 = 0x7C00016E#32 then -- R78
    .ok (.stwux (fieldRS w) (fieldRA w) (fieldRB w))
  else if w &&& 0xFC0007FF#32 = 0x7C00012E#32 then -- R79
    .ok (.stwx (fieldRS w) (fieldRA w) (fieldRB w))
  else .error (.notInScope w)                      -- R81, R82

/-- The instruction at the head of a list of bytes, with the bytes after it (R70: 4 bytes, no length rule). -/
def decode : List Byte → Except DecodeError (Instr × List Byte)
  | b0 :: b1 :: b2 :: b3 :: rest => (decodeWord (wordOfBytes b0 b1 b2 b3)).map fun i => (i, rest)
  | short => .error (.truncated short.length)

/-- A word of form D from its fields, high bits first (R71). -/
def formD (opcd : BitVec 6) (rs ra : RegNum) (d : Disp) : Word := opcd ++ rs ++ ra ++ d

/-- A word of form X from its fields, high bits first (R72). -/
def formX (opcd : BitVec 6) (rs ra rb : RegNum) (xo : BitVec 10) (rc : BitVec 1) : Word :=
  opcd ++ rs ++ ra ++ rb ++ xo ++ rc

/-- The word of an instruction: each field in the place R71 or R72 gives it, with the opcodes of R75. -/
def encodeWord : Instr → Word
  | .stw rs ra d => formD 36 rs ra d
  | .stwu rs ra d => formD 37 rs ra d
  | .stwux rs ra rb => formX 31 rs ra rb 183 0
  | .stwx rs ra rb => formX 31 rs ra rb 151 0

/-- The bytes of an instruction in memory order. -/
def encode (i : Instr) : List Byte := bytesOfWord (encodeWord i)

/-! ### Assembly lines (R83, R85) -/

/-- A line of assembly: a mnemonic with its operands in the order of the text (R83), registers by number. The
spec gives no lexical rules (91_not_in_source.md N20), so a line is its operands and not its letters (DESIGN
CHOICE, log entry 19). -/
inductive AsmLine where
  /-- `stw [RS], [d]([RA0])`. -/
  | stw (rs : Nat) (d : Int) (ra0 : Nat)
  /-- `stwu [RS], [d]([RA])`. -/
  | stwu (rs : Nat) (d : Int) (ra : Nat)
  /-- `stwux [RS], [RA], [RB]`. -/
  | stwux (rs ra rb : Nat)
  /-- `stwx [RS], [RA0], [RB]`. -/
  | stwx (rs ra0 rb : Nat)
  deriving DecidableEq, Repr

/-- A register operand, 0 to 31 (R83, R85). -/
def regOperand (n : Nat) : Option RegNum := if n < 32 then some (BitVec.ofNat 5 n) else none

/-- The displacement operand, -32768 to 32767, as `trunc_16` of its two's-complement form (R83, R85). -/
def dispOperand (d : Int) : Option Disp :=
  if -32768 ≤ d ∧ d ≤ 32767 then some (BitVec.ofInt 16 d) else none

/-- The instruction a line stands for, where its operands are in range. -/
def AsmLine.instr : AsmLine → Option Instr
  | .stw rs d ra0 => do return .stw (← regOperand rs) (← regOperand ra0) (← dispOperand d)
  | .stwu rs d ra => do return .stwu (← regOperand rs) (← regOperand ra) (← dispOperand d)
  | .stwux rs ra rb => do return .stwux (← regOperand rs) (← regOperand ra) (← regOperand rb)
  | .stwx rs ra0 rb => do return .stwx (← regOperand rs) (← regOperand ra0) (← regOperand rb)

/-- The word a line assembles to; `RA` of an update form must not be 0 (R85). -/
def assemble (l : AsmLine) : Option Word :=
  match l.instr with
  | some i => if i.wellFormed then some (encodeWord i) else none
  | none => none

/-- The line of an instruction, an invalid form's too. -/
def disassemble : Instr → AsmLine
  | .stw rs ra d => .stw rs.toNat d.toInt ra.toNat
  | .stwu rs ra d => .stwu rs.toNat d.toInt ra.toNat
  | .stwux rs ra rb => .stwux rs.toNat ra.toNat rb.toNat
  | .stwx rs ra rb => .stwx rs.toNat ra.toNat rb.toNat

/-! ### The host's numbering of a word -/

/-- The instruction word that the low `nbits` bits of `w` give, every bit above them 0. -/
def tableWord (nbits w : Nat) : Word := BitVec.ofNat 32 (w % 2 ^ nbits)

/-- What the decoder reads from a word numbered as spec/opcode_table.json numbers it, its bytes laid out
as the hardware stores them. -/
def decodeTableWord (nbits w : Nat) : Option Instr :=
  match decode (bytesOfWord (tableWord nbits w)) with
  | .ok (i, _) => some i
  | .error _ => none

end Sys2Proof
end

