-- ==== Sys2Proof/Config.lean ====
section
/-! DEFINITION. The parameters of the hardware that 00_scope.md rule R4 leaves to a model: the one the
spec leaves OPEN as a constant with no body, the platform's as plain data a launch state supplies. -/

namespace Sys2Proof

/-- `RESERVATION_GRANULE` (R4, R27; 92_eei_decisions.md D16: "power of two, in bytes ... none; OPEN"), as its
base-two logarithm. It has no body, so every statement holds for every size (log entry 10, which also names where
a unit of that size starts: the model's choice). -/
opaque Config.reservationGranuleLog2 : Nat

/-- A range of byte addresses: `base` to `base + size - 1`. -/
structure Region where
  base : Addr
  size : Nat
  deriving DecidableEq, Repr

/-- A range of accesses: those of `bytes` bytes that begin at an address of `starts`. -/
structure AccessRange where
  bytes : Nat
  starts : Region
  deriving DecidableEq, Repr

/-- The parameters of a step that the platform and the launched program supply (R4: "parameters of the
step, not state"). DESIGN CHOICE: each set is a list of ranges, and every set can be listed (log entries 11
and 12).
No step changes any of them. -/
structure Platform where
  /-- `CodeRegion`: the addresses that hold program text, immutable during a run (R53, R56). -/
  code : List Region
  /-- `END_PC`: the address at which a run ends (R143). -/
  endPc : Addr
  /-- The accesses, by address and byte count, of which `Admits` is false (R47); none by default. Those that
  pass the top of the space need no entry (R48), nor do those that touch `code` (R56, log entry 6). -/
  notAdmitted : List AccessRange
  /-- `CacheInhibited`: the addresses of cache-inhibited storage (R45); none by default. -/
  cacheInhibited : List Region
  deriving DecidableEq, Repr

end Sys2Proof
end

