-- ==== Sys2Proof/Machine/State.lean ====
section
/-! DEFINITION. The state of the machine (10_state.md), as plain data, and its state after reset. -/

namespace Sys2Proof.Machine

/-- Memory: the bytes that hold a value, by address, addresses strictly rising (R30). A byte that is not
listed has never been written and holds no value (log entry 9). -/
abbrev Memory := List Host.Cell

/-- The whole state (10_state.md: "x, pc, mem, resv and nothing else"), with the parameters of the step
beside it (R4, log entry 11). -/
structure State where
  /-- `x[0]` to `x[31]` (R20). -/
  regs : Vector Reg64 32
  /-- The address of the instruction being executed (R25). -/
  pc : Addr
  /-- The bytes of memory (R30). -/
  mem : Memory
  /-- The reservations held, one entry for each: an address in the reserved unit (R27, log entry 10). -/
  resv : List Addr
  /-- `CodeRegion`, `END_PC`, `Admits` and `CacheInhibited` (R4). No step changes it. -/
  platform : Platform
  deriving DecidableEq, Repr

/-- How the machine stops without a refusal. Neither is an exception of the processor: the spec has none
(R120). -/
inductive Fault where
  /-- `step`, where `pc = END_PC` before a fetch: the run has ended well, and the state stepped from is its
  end state (R143, log entry 13). Safe: it says nothing of what the chip does next. -/
  | endOfRun (pc : Addr)
  /-- `fetch`, where one of the 4 bytes at `pc` holds no value (log entry 9). Safe: the machine stops where
  the chip would run whatever stands there. R142's `LaunchCode` rules it out. -/
  | fetchUnwritten (pc : Addr)
  deriving DecidableEq, Repr

/-- The steps to which the spec gives no meaning: the closed list of 60_exceptions.md rule R121, each safe
("Every one of these errs toward the unprovable"), and the reason of an instruction with no meaning yet. -/
inductive Refusal where
  /-- `exec`, for an instruction that is not modelled yet. Safe. No arm answers it. -/
  | notModelled (mnemonic : String)
  /-- `fetch`, where `pc` is not a multiple of 4 (R53). Safe. -/
  | misalignedFetch (pc : Addr)
  /-- `fetch`, where `pc` is outside `CodeRegion` and is not `END_PC` (R53). Safe. -/
  | fetchOutsideCode (pc : Addr)
  /-- `step`, where the fetched word is none of the four instructions (R82). Safe. -/
  | notInScope (w : Word)
  /-- `execStwu` and `execStwux`, where `RA = 0` (R80). Safe. -/
  | invalidForm (w : Word)
  /-- `storeWord`, where `pc = 0xFFFF_FFFC`, so that `pc + 4` does not fit (R25). Safe. -/
  | pcOverflow (pc : Addr)
  /-- `storeWord`, where the access passes the top of the space or is one the platform does not admit
  (R47, R48). Safe. -/
  | accessNotAdmitted (ea : Addr) (n : Nat)
  /-- `storeWord`, where one of the 4 bytes lies in `CodeRegion` (R56). Safe. -/
  | storeToCode (ea : Addr)
  /-- `storeWord`, where the address is misaligned and one of the 4 bytes is cache-inhibited (R45). Safe. -/
  | misalignedCacheInhibited (ea : Addr)
  deriving DecidableEq, Repr

/-- The state after reset. The spec leaves every part of it unspecified (R32, R140) but for the parameters'
defaults (R4), so each value is the model's DESIGN CHOICE: registers 0 (log entry 7); `pc` and `END_PC` where
95_test_vectors.md Part 2 stands every instruction (log entries 8, 11); no byte of memory holding a value (9);
no reservation, the launch value of R32 (10); no program loaded (11); `Admits` and `CacheInhibited` at the
spec's defaults (12). -/
def State.reset : State where
  regs := Vector.replicate 32 0
  pc := 0x00100000
  mem := []
  resv := []
  platform := { code := [], endPc := 0x00100004, notAdmitted := [], cacheInhibited := [] }

end Sys2Proof.Machine
end

