-- ==== Sys2Proof/Machine/Operands.lean ====
section
/-! DEFINITION. Registers and the operand forms of the four instructions (10_state.md R20 to R23,
40_store_word.md R100 and R107). -/

namespace Sys2Proof.Machine

/-- `x[r]`: no register is hardwired, `r0` included (R21). -/
def State.readReg (s : State) (r : RegNum) : Reg64 := s.regs[r.toNat]'r.isLt

/-- `x[r] <- v`. -/
def State.writeReg (s : State) (r : RegNum) (v : Reg64) : State :=
  { s with regs := s.regs.set r.toNat v r.isLt }

/-- `base0(RA)`: the literal zero where the field is 0, and then no register is read (R22). -/
def base0 (s : State) (ra : RegNum) : Reg64 := if ra = 0#5 then 0#64 else s.readReg ra

/-- `sext_64(D)`: the displacement in bytes, unscaled (R73). -/
def displacement (d : Disp) : Reg64 := d.signExtend 64

/-- `EA = EA64[31:0]` of `EA64 = b + o`, a sum modulo 2^64 that records nothing (R40, R100 line 5, R105;
log entry 1). -/
def effectiveAddress (b o : Reg64) : Addr := (b + o).extractLsb' 0 32

/-- `x[RS][31:0]`, the word stored (R23, R100 line 4). -/
def storedWord (s : State) (rs : RegNum) : Word := (s.readReg rs).extractLsb' 0 32

end Sys2Proof.Machine
end

