-- ==== Sys2Proof/Machine/Ops.lean ====
section
/-! DEFINITION. The operations the four instructions share: bytes of memory, the access check, reservations,
fetch, and the store itself (20_memory.md, 40_store_word.md R100 and R108). There is no operation that takes
an exception or returns from one: the spec has neither (60_exceptions.md R120, R125, R126). -/

namespace Sys2Proof.Machine

/-! ### Memory -/

/-- The byte at `a`, or none where nothing has written it (log entry 9). -/
def Memory.readByte (m : Memory) (a : Addr) : Option Byte :=
  match m with
  | [] => none
  | (k, b) :: rest => if k = a.toNat then some b else Memory.readByte rest a

/-- Writes one byte, keeping the addresses strictly rising. -/
def Memory.writeByte (m : Memory) (a : Addr) (v : Byte) : Memory :=
  match m with
  | [] => [(a.toNat, v)]
  | (k, b) :: rest =>
    if a.toNat < k then (a.toNat, v) :: (k, b) :: rest
    else if a.toNat = k then (k, v) :: rest
    else (k, b) :: Memory.writeByte rest a v

/-- The canonical form from address `low` on: addresses strictly rising and inside the 32-bit space. -/
def Memory.wfFrom (low : Nat) : Memory → Bool
  | [] => true
  | (k, _) :: rest => decide (low ≤ k) && decide (k < 2 ^ 32) && Memory.wfFrom (k + 1) rest

/-- The canonical form of memory. Every byte listed holds a value, so no entry is redundant. -/
def Memory.wf (m : Memory) : Bool := Memory.wfFrom 0 m

/-- The bytes of an `n`-byte value, the most significant first (R41). -/
def bytesBE (n : Nat) (v : BitVec (8 * n)) : List Byte :=
  (List.range n).map fun k => v.extractLsb' (8 * (n - k - 1)) 8

/-- Writes bytes at rising addresses from `a`. -/
def Memory.writeBytes (m : Memory) (a : Addr) : List Byte → Memory
  | [] => m
  | b :: rest => Memory.writeBytes (m.writeByte a b) (a + 1#32) rest

/-- `MemWrite(addr, n, v)`, big-endian (R41). -/
def Memory.write (m : Memory) (a : Addr) (n : Nat) (v : BitVec (8 * n)) : Memory :=
  m.writeBytes a (bytesBE n v)

/-- The bytes at `a` to `a + n - 1`, or none where one of them holds no value. -/
def Memory.readBytes (m : Memory) (a : Addr) : Nat → Option (List Byte)
  | 0 => some []
  | n + 1 =>
    match m.readByte a, Memory.readBytes m (a + 1#32) n with
    | some b, some bs => some (b :: bs)
    | _, _ => none

/-- The number whose big-endian bytes are given. -/
def natOfBytesBE (bs : List Byte) : Nat := bs.foldl (fun acc b => 256 * acc + b.toNat) 0

/-- `MemRead(addr, n)`, big-endian (R42). -/
def Memory.read (m : Memory) (a : Addr) (n : Nat) : Option (BitVec (8 * n)) :=
  (m.readBytes a n).map fun bs => BitVec.ofNat (8 * n) (natOfBytesBE bs)

/-! ### Regions and the access check -/

/-- Whether a range holds an address. -/
def Region.holds (r : Region) (a : Addr) : Bool :=
  decide (r.base.toNat ≤ a.toNat) && decide (a.toNat < r.base.toNat + r.size)

/-- Whether some range of a list holds an address. -/
def anyHolds (rs : List Region) (a : Addr) : Bool := rs.any fun r => Region.holds r a

/-- Whether an access of `n` bytes at `a` touches some range of a list. -/
def touches (rs : List Region) (a : Addr) (n : Nat) : Bool :=
  (List.range n).any fun k => anyHolds rs (a + BitVec.ofNat 32 k)

/-- Whether a range of accesses holds the access of `n` bytes at `a`. -/
def AccessRange.holds (x : AccessRange) (a : Addr) (n : Nat) : Bool :=
  x.bytes == n && Region.holds x.starts a

/-- `Admits(addr, n)`: inside the 32-bit space (R48, log entry 5) and none of the accesses the platform does not
admit (R47, log entry 12). The exclusion of `CodeRegion` is R56's own check, with its own reason (log entry 6). -/
def admits (p : Platform) (a : Addr) (n : Nat) : Bool :=
  decide (a.toNat + n ≤ 2 ^ 32) && !p.notAdmitted.any fun x => AccessRange.holds x a n

/-- R100 line 6: the first reason for which a 4-byte store at `ea` is refused, if there is one. -/
def accessRefusal (p : Platform) (ea : Addr) : Option Refusal :=
  if !admits p ea 4 then some (.accessNotAdmitted ea 4)
  else if touches p.code ea 4 then some (.storeToCode ea)
  else if ea.toNat % 4 ≠ 0 ∧ touches p.cacheInhibited ea 4 then some (.misalignedCacheInhibited ea)
  else none

/-! ### Reservations -/

/-- The number of the unit of `RESERVATION_GRANULE` bytes that holds an address (R27). DESIGN CHOICE: the spec
gives a unit's size alone (D16), and the model takes units to start at the multiples of that size (log entry
10). -/
def reservationUnit (a : Addr) : Nat := a.toNat / 2 ^ Config.reservationGranuleLog2

/-- `ReservationKill(addr, n)`: cancels every reservation whose unit holds one of the bytes, the storing
thread's own included (R27, D16). -/
def killReservations (resv : List Addr) (a : Addr) (n : Nat) : List Addr :=
  resv.filter fun r =>
    !(List.range n).any fun k => reservationUnit (a + BitVec.ofNat 32 k) == reservationUnit r

/-! ### Fetch -/

/-- The word at `pc` (R52), with the checks of R53 in the order of R124. -/
def fetch (s : State) : Host.Outcome Word Fault Refusal :=
  if s.pc.toNat % 4 ≠ 0 then .refused (.misalignedFetch s.pc)
  else if !anyHolds s.platform.code s.pc then .refused (.fetchOutsideCode s.pc)
  else
    match s.mem.read s.pc 4 with
    | some w => .next w
    | none => .fault (.fetchUnwritten s.pc)

/-! ### The end of a run -/

/-- The number just past the last byte of program text, 0 where there is no program text. -/
def codeEnd : List Region → Nat
  | [] => 0
  | r :: rest => if r.size = 0 then codeEnd rest else max (r.base.toNat + r.size) (codeEnd rest)

/-- `END_PC` by default (R143): the address just past the last word of the program. There is none without a
program, and none as a 32-bit address where the program ends at the top of the space. -/
def defaultEndPc (code : List Region) : Option Addr :=
  if 0 < codeEnd code ∧ codeEnd code < 2 ^ 32 then some (BitVec.ofNat 32 (codeEnd code)) else none

/-- An `END_PC` outside `CodeRegion` (R143): the default where there is one. DESIGN CHOICE: without it, the address
just past some range of code, modulo 2^32, that is not itself code; `spare` where every word is code, so that no
address can be an `END_PC` (log entry 15). -/
def endPcOutside (code : List Region) (spare : Addr) : Addr :=
  (((defaultEndPc code).toList ++ code.map fun r => r.base + BitVec.ofNat 32 r.size).find?
    fun a => !anyHolds code a).getD spare

/-! ### The store -/

/-- R100 lines 7 to 10: cancel reservations, write memory, update the base register of an update form,
advance `pc`. The word stored was read before any of them. -/
def commitStore (s : State) (ea : Addr) (vs : Word) (update : Option RegNum) : State :=
  let s := { s with resv := killReservations s.resv ea 4 }
  let s := { s with mem := s.mem.write ea 4 vs }
  let s :=
    match update with
    | some ra => s.writeReg ra (ea.setWidth 64)
    | none => s
  { s with pc := s.pc + 4#32 }

/-- R100 lines 3 to 10 for the source register `rs`, base `b` and offset `o`: the one operation behind all
four instructions (R108). `update` is the base register of an update form. -/
def storeWord (rs : RegNum) (b o : Reg64) (update : Option RegNum) (s : State) :
    Host.Outcome State Fault Refusal :=
  if s.pc = 0xFFFFFFFC#32 then .refused (.pcOverflow s.pc)
  else
    match accessRefusal s.platform (effectiveAddress b o) with
    | some r => .refused r
    | none => .next (commitStore s (effectiveAddress b o) (storedWord s rs) update)

end Sys2Proof.Machine
end

