-- ==== Sys2Proof/Machine/StoreWord.lean ====
section
/-! DEFINITION. The meanings of the four Store Word instructions (40_store_word.md R101 to R104), each one
call of the shared store with its own operand forms (R107, R108). -/

namespace Sys2Proof.Machine

/-- `stw RS, d(RA0)` (R101). -/
def execStw (rs ra : RegNum) (d : Disp) (s : State) : Host.Outcome State Fault Refusal :=
  storeWord rs (base0 s ra) (displacement d) none s

/-- `stwu RS, d(RA)` (R102); `RA = 0` is an invalid form (R80, log entry 3). -/
def execStwu (rs ra : RegNum) (d : Disp) (s : State) : Host.Outcome State Fault Refusal :=
  if ra = 0#5 then .refused (.invalidForm (encodeWord (.stwu rs ra d)))
  else storeWord rs (s.readReg ra) (displacement d) (some ra) s

/-- `stwux RS, RA, RB` (R103); `RA = 0` is an invalid form (R80, log entry 3). -/
def execStwux (rs ra rb : RegNum) (s : State) : Host.Outcome State Fault Refusal :=
  if ra = 0#5 then .refused (.invalidForm (encodeWord (.stwux rs ra rb)))
  else storeWord rs (s.readReg ra) (s.readReg rb) (some ra) s

/-- `stwx RS, RA0, RB` (R104). -/
def execStwx (rs ra rb : RegNum) (s : State) : Host.Outcome State Fault Refusal :=
  storeWord rs (base0 s ra) (s.readReg rb) none s

end Sys2Proof.Machine
end

