-- ==== Sys2Proof/Machine/Dispatch.lean ====
section
/-! DEFINITION. One arm for each instruction, each one direct call of its meaning. -/

namespace Sys2Proof.Machine

def exec (i : Instr) (s : State) : Host.Outcome State Fault Refusal :=
  match i with
  | .stw rs ra d => Sys2Proof.Machine.execStw rs ra d s
  | .stwu rs ra d => Sys2Proof.Machine.execStwu rs ra d s
  | .stwux rs ra rb => Sys2Proof.Machine.execStwux rs ra rb s
  | .stwx rs ra rb => Sys2Proof.Machine.execStwx rs ra rb s

end Sys2Proof.Machine
end

