-- ==== Sys2Proof/Machine/Step.lean ====
section
/-! DEFINITION. One step of the one hardware thread (00_scope.md rule R8), and the load of one instruction
where the next step fetches. -/

namespace Sys2Proof.Machine

/-- R8 and R143: the end of the run before a fetch; else fetch, decode, and run the rule of the decoded
instruction. Nothing else happens in a step (R123, R148). -/
def step (s : State) : Host.Outcome State Fault Refusal :=
  if s.pc = s.platform.endPc then .fault (.endOfRun s.pc)
  else
    match fetch s with
    | .fault f => .fault f
    | .refused r => .refused r
    | .next w =>
      match decodeWord w with
      | .ok i => exec i s
      | .error _ => .refused (.notInScope w)

/-- The load of a one-word program where the next step fetches (log entry 15). The fetch needs `pc` a multiple
of 4 and inside `CodeRegion`, the word's 4 bytes there, and `END_PC` elsewhere; nothing else changes. An `END_PC`
in the way moves out of `CodeRegion`, to its default where there is one. -/
def State.withFetchWord (s : State) (nbits w : Nat) : State :=
  let pc := s.pc &&& 0xFFFFFFFC#32
  let code := { base := pc, size := 4 } :: s.platform.code
  { s with
    pc := pc
    mem := s.mem.write pc 4 (tableWord nbits w)
    platform := { s.platform with
      code := code
      endPc := if s.platform.endPc = pc then endPcOutside code (pc + 4#32) else s.platform.endPc } }

end Sys2Proof.Machine
end

