-- ==== Sys2Proof/Safety.lean ====
section
/-! DEFINITION. The terms statements are made in: the address and word of a store, when a store may be done,
what a done store leaves, the launch premises, and how a run ends. Each is written from the spec's rule and
not from the operations that carry the machine out. -/

namespace Sys2Proof.Machine

/-! ### What an instruction stores, and where -/

/-- `EA64`, by the table of 40_store_word.md R107. -/
def storageSum : Instr → State → Reg64
  | .stw _ ra d, s => (if ra = 0#5 then 0#64 else s.readReg ra) + d.signExtend 64
  | .stwu _ ra d, s => s.readReg ra + d.signExtend 64
  | .stwux _ ra rb, s => s.readReg ra + s.readReg rb
  | .stwx _ ra rb, s => (if ra = 0#5 then 0#64 else s.readReg ra) + s.readReg rb

/-- `EA = EA64[31:0]` (20_memory.md R40). -/
def storageAddress (i : Instr) (s : State) : Addr := (storageSum i s).setWidth 32

/-- The register whose low word is stored, `RS` (10_state.md R23). -/
def sourceReg : Instr → RegNum
  | .stw rs _ _ => rs
  | .stwu rs _ _ => rs
  | .stwux rs _ _ => rs
  | .stwx rs _ _ => rs

/-- The registers an instruction reads to form its address: `RA`, but not where `base0` takes field value 0
for the literal zero, and `RB` (10_state.md R22, R23). -/
def addressRegs : Instr → List RegNum
  | .stw _ ra _ => if ra = 0#5 then [] else [ra]
  | .stwu _ ra _ => [ra]
  | .stwux _ ra rb => [ra, rb]
  | .stwx _ ra rb => if ra = 0#5 then [rb] else [ra, rb]

/-- The register an instruction writes, where it writes one (10_state.md R23). -/
def updatedReg : Instr → Option RegNum
  | .stw _ _ _ => none
  | .stwu _ ra _ => some ra
  | .stwux _ ra _ => some ra
  | .stwx _ _ _ => none

/-- The low 32 bits of a register (R23, R46). -/
def lowWord (s : State) (r : RegNum) : Word := (s.readReg r).setWidth 32

/-! ### When a store may be done -/

/-- An address, as a number, lies in one of the ranges. -/
abbrev inRegions (rs : List Region) (a : Nat) : Prop :=
  ∃ r ∈ rs, r.base.toNat ≤ a ∧ a < r.base.toNat + r.size

/-- An access of `n` bytes at `a`, as a number, is in one of the ranges of accesses. -/
abbrev inAccesses (xs : List AccessRange) (a n : Nat) : Prop :=
  ∃ x ∈ xs, x.bytes = n ∧ x.starts.base.toNat ≤ a ∧ a < x.starts.base.toNat + x.starts.size

/-- `pc + 4` fits in 32 bits (R25, R100 line 3). -/
abbrev PcHasRoom (s : State) : Prop := s.pc ≠ 0xFFFFFFFC#32

/-- The 4 bytes at `ea` stay inside the space, and the platform admits the access (R47, R48). -/
abbrev Admitted (s : State) (ea : Addr) : Prop :=
  ea.toNat ≤ 0xFFFFFFFC ∧ ¬ inAccesses s.platform.notAdmitted ea.toNat 4

/-- None of the 4 bytes at `ea` is program text (R56). -/
abbrev ClearOfCode (s : State) (ea : Addr) : Prop :=
  ∀ k < 4, ¬ inRegions s.platform.code (ea.toNat + k)

/-- `ea` is aligned, or none of its 4 bytes is cache-inhibited (R45). -/
abbrev AlignedWhereInhibited (s : State) (ea : Addr) : Prop :=
  ea.toNat % 4 = 0 ∨ ∀ k < 4, ¬ inRegions s.platform.cacheInhibited (ea.toNat + k)

/-- Lines 3 and 6 of R100 refuse nothing: a valid form stores exactly here. -/
abbrev MayStore (s : State) (ea : Addr) : Prop :=
  PcHasRoom s ∧ Admitted s ea ∧ ClearOfCode s ea ∧ AlignedWhereInhibited s ea

/-! ### What a done store leaves -/

/-- Memory `m'` is `m` with the word `v` big-endian at `ea`: the four bytes of R41, and every other byte as
it was. -/
def StoresWordAt (m m' : Memory) (ea : Addr) (v : Word) : Prop :=
  m'.readByte ea = some (v.extractLsb' 24 8) ∧
  m'.readByte (ea + 1#32) = some (v.extractLsb' 16 8) ∧
  m'.readByte (ea + 2#32) = some (v.extractLsb' 8 8) ∧
  m'.readByte (ea + 3#32) = some (v.extractLsb' 0 8) ∧
  ∀ a, a ≠ ea → a ≠ ea + 1#32 → a ≠ ea + 2#32 → a ≠ ea + 3#32 → m'.readByte a = m.readByte a

/-- The number of the reservation unit that holds address `a` (R27), units starting at the multiples of their
size (DESIGN CHOICE, log entry 10). -/
def unitOf (a : Nat) : Nat := a / 2 ^ Config.reservationGranuleLog2

/-- The reservations a store of the 4 bytes at `ea` leaves: those whose unit holds none of them (R27). -/
def reservationsLeft (resv : List Addr) (ea : Addr) : List Addr :=
  resv.filter fun r => (List.range 4).all fun k => unitOf (ea.toNat + k) != unitOf r.toNat

/-- Lines 7, 8 and 10 of R100 were done for the word `v` at `ea`, and nothing else but what line 9 says of
the registers. -/
def StoreDone (s t : State) (ea : Addr) (v : Word) : Prop :=
  StoresWordAt s.mem t.mem ea v ∧
  t.resv = reservationsLeft s.resv ea ∧
  t.pc = s.pc + 4#32 ∧
  t.platform = s.platform

/-! ### Launch premises, invariants and runs -/

/-- `CodeRegion` is a whole number of aligned words inside the space (R142, and the table of open parameters of
92_eei_decisions.md). -/
abbrev CodeInWords (p : Platform) : Prop :=
  ∀ r ∈ p.code, r.base.toNat % 4 = 0 ∧ r.size % 4 = 0 ∧ r.base.toNat + r.size ≤ 2 ^ 32

/-- What the parameters of a step are (R4, R142, R143): `CodeRegion` in whole words, `END_PC` a multiple of 4
outside it. -/
abbrev Platform.Lawful (p : Platform) : Prop :=
  CodeInWords p ∧ p.endPc.toNat % 4 = 0 ∧ ¬ inRegions p.code p.endPc.toNat

/-- What every step keeps: memory in its canonical form, `pc` a multiple of 4 (R53), lawful parameters. -/
abbrev State.Lawful (s : State) : Prop :=
  s.mem.wf = true ∧ s.pc.toNat % 4 = 0 ∧ Platform.Lawful s.platform

/-- `LaunchAligned` (R142). -/
abbrev LaunchAligned (s : State) : Prop :=
  s.pc.toNat % 4 = 0 ∧ inRegions s.platform.code s.pc.toNat

/-- A program: the word that stands at each word address of `CodeRegion`. -/
abbrev Program := Addr → Word

/-- `LaunchCode` (R142): `CodeRegion` is a whole number of words and holds the program, each word big-endian. -/
def LaunchCode (program : Program) (s : State) : Prop :=
  CodeInWords s.platform ∧
  ∀ a : Addr, a.toNat % 4 = 0 → inRegions s.platform.code a.toNat → s.mem.read a 4 = some (program a)

/-- `LaunchNoReservation` (R142): `resv` is empty, or it is the explicit list `held` that the model carries. -/
abbrev LaunchNoReservation (held : List Addr) (s : State) : Prop := s.resv = [] ∨ s.resv = held

/-- `LaunchNoRefusal` (R142), of the outcome a run starts from: no refusal has been recorded. -/
abbrev LaunchNoRefusal (o : Host.Outcome State Fault Refusal) : Prop := ∀ r, o ≠ .refused r

/-- A launch state of a program (R142), with the invariant of the model. The general registers and memory
outside `CodeRegion` are free. -/
def Launched (program : Program) (held : List Addr) (s : State) : Prop :=
  s.Lawful ∧ LaunchAligned s ∧ LaunchCode program s ∧ LaunchNoReservation held s ∧ LaunchNoRefusal (.next s)

/-- `n` steps, stopping at the first fault or refusal. It is the host's `Core.run` at this machine's own types
(`run_eq_core_run`). -/
def run : Nat → State → Host.Outcome State Fault Refusal
  | 0, s => .next s
  | n + 1, s =>
    match step s with
    | .next t => run n t
    | .fault f => .fault f
    | .refused r => .refused r

/-- A run of `n` steps from `s` that ends well in `t`: no step is refused and `pc` has come to `END_PC`
(R143). -/
def EndsWell (n : Nat) (s t : State) : Prop :=
  run n s = .next t ∧ t.pc = t.platform.endPc

/-- A run of `n` steps from `s` after which the next step, in `t`, is refused (R121, R143). -/
def EndsBadly (n : Nat) (s t : State) (r : Refusal) : Prop :=
  run n s = .next t ∧ step t = .refused r

/-- Two states that differ in nothing but the high halves of registers. -/
def SameLowHalves (s s' : State) : Prop :=
  s.pc = s'.pc ∧ s.mem = s'.mem ∧ s.resv = s'.resv ∧ s.platform = s'.platform ∧
  ∀ r, lowWord s r = lowWord s' r

end Sys2Proof.Machine
end

