-- ==== Sys2Proof/Certificates/Slice0/Obligations.lean ====
section
/-! DEFINITION. The statements for the provers, in the order of OBLIGATIONS.json. A statement marked "decision"
rests on a choice the spec marks as its own (92_eei_decisions.md), or on the model's, and says which. -/

open Sys2Proof Sys2Proof.Machine

/-! ### Encoding (30_encoding.md) -/

/-- R76: exactly the words with `OPCD = 36` are `stw`, with the fields of form D; each is a valid form. -/
def Obligations.StwIsPrimaryOpcode36 : Prop :=
  ∀ w : Word,
    (w &&& 0xFC000000#32 = 0x90000000#32 ↔ w.extractLsb' 26 6 = 36) ∧
    ∀ rs ra d, Instr.wellFormed (.stw rs ra d) = true ∧
      (decodeWord w = .ok (.stw rs ra d) ↔
        w.extractLsb' 26 6 = 36 ∧ rs = w.extractLsb' 21 5 ∧ ra = w.extractLsb' 16 5 ∧ d = w.extractLsb' 0 16)

/-- R77: exactly the words with `OPCD = 37` are `stwu`, with the fields of form D; `RA = 0` is the invalid
form. -/
def Obligations.StwuIsPrimaryOpcode37 : Prop :=
  ∀ w : Word,
    (w &&& 0xFC000000#32 = 0x94000000#32 ↔ w.extractLsb' 26 6 = 37) ∧
    ∀ rs ra d, (Instr.wellFormed (.stwu rs ra d) = true ↔ ra ≠ 0#5) ∧
      (decodeWord w = .ok (.stwu rs ra d) ↔
        w.extractLsb' 26 6 = 37 ∧ rs = w.extractLsb' 21 5 ∧ ra = w.extractLsb' 16 5 ∧ d = w.extractLsb' 0 16)

/-- R78: exactly the words with `OPCD = 31`, `XO = 183`, `Rc = 0` are `stwux`, with the fields of form X;
`RA = 0` is the invalid form. -/
def Obligations.StwuxIsExtendedOpcode183 : Prop :=
  ∀ w : Word,
    (w &&& 0xFC0007FF#32 = 0x7C00016E#32 ↔
      w.extractLsb' 26 6 = 31 ∧ w.extractLsb' 1 10 = 183 ∧ w.extractLsb' 0 1 = 0) ∧
    ∀ rs ra rb, (Instr.wellFormed (.stwux rs ra rb) = true ↔ ra ≠ 0#5) ∧
      (decodeWord w = .ok (.stwux rs ra rb) ↔
        (w.extractLsb' 26 6 = 31 ∧ w.extractLsb' 1 10 = 183 ∧ w.extractLsb' 0 1 = 0) ∧
        rs = w.extractLsb' 21 5 ∧ ra = w.extractLsb' 16 5 ∧ rb = w.extractLsb' 11 5)

/-- R79: exactly the words with `OPCD = 31`, `XO = 151`, `Rc = 0` are `stwx`, with the fields of form X; each
is a valid form. -/
def Obligations.StwxIsExtendedOpcode151 : Prop :=
  ∀ w : Word,
    (w &&& 0xFC0007FF#32 = 0x7C00012E#32 ↔
      w.extractLsb' 26 6 = 31 ∧ w.extractLsb' 1 10 = 151 ∧ w.extractLsb' 0 1 = 0) ∧
    ∀ rs ra rb, Instr.wellFormed (.stwx rs ra rb) = true ∧
      (decodeWord w = .ok (.stwx rs ra rb) ↔
        (w.extractLsb' 26 6 = 31 ∧ w.extractLsb' 1 10 = 151 ∧ w.extractLsb' 0 1 = 0) ∧
        rs = w.extractLsb' 21 5 ∧ ra = w.extractLsb' 16 5 ∧ rb = w.extractLsb' 11 5)

/-- Decision D17 and D18 of the spec (its section 30_encoding.md 4; log entry 4): the words rejected as not in
scope are exactly those of neither primary opcode 36 nor 37 nor a form X word of the two with `Rc = 0`. -/
def Obligations.OtherWordsAreNotInScope : Prop :=
  ∀ w : Word,
    decodeWord w = .error (.notInScope w) ↔
      w.extractLsb' 26 6 ≠ 36 ∧ w.extractLsb' 26 6 ≠ 37 ∧
      ¬ (w.extractLsb' 26 6 = 31 ∧ (w.extractLsb' 1 10 = 151 ∨ w.extractLsb' 1 10 = 183) ∧
        w.extractLsb' 0 1 = 0)

/-- R85: the assembled word of each instruction is the spec's formula; a decoded word re-assembles to itself;
the example's word and its bytes in memory. -/
def Obligations.AssembledWordIsTheFormula : Prop :=
  (∀ (rs ra : RegNum) (d : Disp),
    encodeWord (.stw rs ra d) =
      0x90000000#32 ||| rs.setWidth 32 <<< 21 ||| ra.setWidth 32 <<< 16 ||| d.setWidth 32 ∧
    encodeWord (.stwu rs ra d) =
      0x94000000#32 ||| rs.setWidth 32 <<< 21 ||| ra.setWidth 32 <<< 16 ||| d.setWidth 32) ∧
  (∀ rs ra rb : RegNum,
    encodeWord (.stwux rs ra rb) =
      0x7C00016E#32 ||| rs.setWidth 32 <<< 21 ||| ra.setWidth 32 <<< 16 ||| rb.setWidth 32 <<< 11 ∧
    encodeWord (.stwx rs ra rb) =
      0x7C00012E#32 ||| rs.setWidth 32 <<< 21 ||| ra.setWidth 32 <<< 16 ||| rb.setWidth 32 <<< 11) ∧
  (∀ w i, decodeWord w = .ok i → encodeWord i = w) ∧
  encodeWord (.stwu 1 1 (BitVec.ofInt 16 (-16))) = 0x9421FFF0#32 ∧
  encode (.stwu 1 1 (BitVec.ofInt 16 (-16))) = [0x94#8, 0x21#8, 0xFF#8, 0xF0#8]

/-- Every instruction, at every value of its operands, decodes from its own bytes, whatever bytes follow. -/
def Obligations.DecodeOfEncodeIsTheInstruction : Prop :=
  ∀ (i : Instr) (rest : List Byte),
    decodeWord (encodeWord i) = .ok i ∧ decode (encode i ++ rest) = .ok (i, rest)

/-- R83 and R85, on lines of assembly: every valid form is assembled from its own line, and a line assembles
exactly where its operands are in range and an update form's `RA` is not 0. That a line is its operands and not its
letters is the model's choice (log entry 19). -/
def Obligations.AssemblyLinesRoundTrip : Prop :=
  (∀ i : Instr, i.wellFormed = true → assemble (disassemble i) = some (encodeWord i)) ∧
  (∀ (l : AsmLine) (w : Word), assemble l = some w → ∃ i, decodeWord w = .ok i ∧ disassemble i = l) ∧
  (∀ (rs ra : Nat) (d : Int),
    ((assemble (.stw rs d ra)).isSome = true ↔ rs < 32 ∧ ra < 32 ∧ -32768 ≤ d ∧ d ≤ 32767) ∧
    ((assemble (.stwu rs d ra)).isSome = true ↔ rs < 32 ∧ ra < 32 ∧ ra ≠ 0 ∧ -32768 ≤ d ∧ d ≤ 32767)) ∧
  (∀ rs ra rb : Nat,
    ((assemble (.stwx rs ra rb)).isSome = true ↔ rs < 32 ∧ ra < 32 ∧ rb < 32) ∧
    ((assemble (.stwux rs ra rb)).isSome = true ↔ rs < 32 ∧ ra < 32 ∧ ra ≠ 0 ∧ rb < 32))

/-- The words of 95_test_vectors.md E1 to E15 decode as listed there. -/
def Obligations.SpecVectorsDecode : Prop :=
  decodeWord 0x90640008#32 = .ok (.stw 3 4 8) ∧
  decodeWord 0x9060FFFC#32 = .ok (.stw 3 0 (BitVec.ofInt 16 (-4))) ∧
  decodeWord 0x90A68000#32 = .ok (.stw 5 6 (BitVec.ofInt 16 (-32768))) ∧
  decodeWord 0x93FFFFFF#32 = .ok (.stw 31 31 (BitVec.ofInt 16 (-1))) ∧
  decodeWord 0x9421FFF0#32 = .ok (.stwu 1 1 (BitVec.ofInt 16 (-16))) ∧
  decodeWord 0x94600008#32 = .ok (.stwu 3 0 8) ∧
  decodeWord 0x7C64292E#32 = .ok (.stwx 3 4 5) ∧
  decodeWord 0x7C64296E#32 = .ok (.stwux 3 4 5) ∧
  decodeWord 0x7C64292F#32 = .error (.notInScope 0x7C64292F#32) ∧
  decodeWord 0x7C64296F#32 = .error (.notInScope 0x7C64296F#32) ∧
  decodeWord 0x7C00012D#32 = .error (.notInScope 0x7C00012D#32) ∧
  decodeWord 0x7C00052E#32 = .error (.notInScope 0x7C00052E#32) ∧
  decodeWord 0x00000000#32 = .error (.notInScope 0x00000000#32) ∧
  decodeWord 0x8C000000#32 = .error (.notInScope 0x8C000000#32) ∧
  decodeWord 0x98000000#32 = .error (.notInScope 0x98000000#32) ∧
  decodeWord 0xF8000000#32 = .error (.notInScope 0xF8000000#32) ∧
  decodeWord 0x7FFFF92E#32 = .ok (.stwx 31 31 31) ∧
  decodeWord 0x97FF7FFF#32 = .ok (.stwu 31 31 0x7FFF)

/-! ### Registers and operands (10_state.md, 30_encoding.md) -/

/-- 10_state.md section 1 (R21): every register, `r0` included, holds what was last written to it, and `r0` named by
`RS` or `RB` is read as an ordinary register by every instruction that has the field. That the store is at the sum
cut to 32 bits is decision D2 of the spec (log entry 1). -/
def Obligations.RegisterZeroIsOrdinary : Prop :=
  (∀ (s : State) (r r' : RegNum) (v : Reg64),
    (s.writeReg r v).readReg r' = if r' = r then v else s.readReg r') ∧
  (∀ (i : Instr) (s t : State), sourceReg i = 0#5 → exec i s = .next t →
    StoresWordAt s.mem t.mem (storageAddress i s) ((s.readReg 0).setWidth 32)) ∧
  (∀ (rs ra : RegNum) (s t : State), exec (.stwux rs ra 0) s = .next t →
    StoresWordAt s.mem t.mem ((s.readReg ra + s.readReg 0).setWidth 32) (lowWord s rs)) ∧
  (∀ (rs ra : RegNum) (s t : State), exec (.stwx rs ra 0) s = .next t →
    StoresWordAt s.mem t.mem ((base0 s ra + s.readReg 0).setWidth 32) (lowWord s rs))

/-- R22: `base0` is the literal zero for field value 0, whatever `r0` holds, and else the register named. -/
def Obligations.BaseZeroIsLiteralZero : Prop :=
  ∀ (s : State) (ra : RegNum),
    (ra = 0#5 → base0 s ra = 0#64) ∧
    (ra ≠ 0#5 → base0 s ra = s.readReg ra) ∧
    ∀ v, base0 (s.writeReg 0 v) ra = base0 s ra

/-- R73: the displacement enters the sum as the signed number that the field's 16 bits are, with bit 15 copied
into bits 63 to 16; the rule's four examples. -/
def Obligations.DisplacementIsSignExtended : Prop :=
  (∀ d : Disp,
    (displacement d).toInt = d.toInt ∧ -32768 ≤ (displacement d).toInt ∧ (displacement d).toInt ≤ 32767 ∧
    (displacement d).extractLsb' 0 16 = d ∧
    ∀ k, 16 ≤ k → k < 64 → (displacement d).getLsbD k = d.getLsbD 15) ∧
  displacement 0x0008#16 = 0x0000000000000008#64 ∧
  displacement 0xFFF0#16 = 0xFFFFFFFFFFFFFFF0#64 ∧
  displacement 0x8000#16 = 0xFFFFFFFFFFFF8000#64 ∧
  displacement 0x7FFF#16 = 0x0000000000007FFF#64

/-! ### Memory (20_memory.md) -/

/-- R41: `MemWrite` puts the byte `v[8(n-k)-1 : 8(n-k-1)]` at `addr + k`, and changes no other byte. -/
def Obligations.MemWriteIsBigEndian : Prop :=
  ∀ (m : Memory) (a : Addr) (n : Nat) (v : BitVec (8 * n)), a.toNat + n ≤ 2 ^ 32 →
    (∀ k < n, (m.write a n v).readByte (a + BitVec.ofNat 32 k) = some (v.extractLsb' (8 * (n - k - 1)) 8)) ∧
    ∀ b : Addr, (b.toNat < a.toNat ∨ a.toNat + n ≤ b.toNat) → (m.write a n v).readByte b = m.readByte b

/-- R42: `MemRead` is the value whose bytes, the most significant first, stand at rising addresses, and it is
the inverse of `MemWrite`. -/
def Obligations.MemReadIsTheInverse : Prop :=
  (∀ (m : Memory) (a : Addr) (n : Nat) (v : BitVec (8 * n)),
    m.read a n = some v ↔
      ∀ k < n, m.readByte (a + BitVec.ofNat 32 k) = some (v.extractLsb' (8 * (n - k - 1)) 8)) ∧
  ∀ (m : Memory) (a : Addr) (n : Nat) (v : BitVec (8 * n)), a.toNat + n ≤ 2 ^ 32 →
    (m.write a n v).read a n = some v

/-- The mixed-width view of 20_memory.md section 2, for every word `v` stored at `a`: a byte read and a halfword
read see the parts of it, and a later word store at `a + 2`, where one is admitted too, leaves its first two bytes
alone. -/
def Obligations.MixedWidthView : Prop :=
  (∀ (m : Memory) (a : Addr) (v : Word), a.toNat + 4 ≤ 2 ^ 32 →
    (m.write a 4 v).read a 1 = some (v.extractLsb' 24 8) ∧
    (m.write a 4 v).read (a + 2#32) 2 = some (v.extractLsb' 0 16)) ∧
  ∀ (m : Memory) (a : Addr) (v v' : Word), a.toNat + 6 ≤ 2 ^ 32 →
    ((m.write a 4 v).write (a + 2#32) 4 v').readByte a = some (v.extractLsb' 24 8) ∧
    ((m.write a 4 v).write (a + 2#32) 4 v').readByte (a + 1#32) = some (v.extractLsb' 16 8) ∧
    ((m.write a 4 v).write (a + 2#32) 4 v').read (a + 2#32) 4 = some v'

/-- Memories in canonical form that read alike at every address are equal (the model's own form, log entry 9). -/
def Obligations.CanonicalMemoryIsDeterminedByReads : Prop :=
  ∀ m m' : Memory, m.wf = true → m'.wf = true → (∀ a, m.readByte a = m'.readByte a) → m = m'

/-- The lists of `Platform` (the model's choice, log entry 12) leave the parameters of 20_memory.md sections 3 and 5
as free as the spec does: every predicate on an address and a byte count is an `Admits`, inside the space (decisions
D8 and D9), and every predicate on an address is a `CacheInhibited` (decision D11). -/
def Obligations.EveryAdmitsCanBeListed : Prop :=
  (∀ f : Addr → Nat → Bool, ∃ l, ∀ (p : Platform) (a : Addr) (n : Nat),
    admits { p with notAdmitted := l } a n = true ↔ a.toNat + n ≤ 2 ^ 32 ∧ f a n = true) ∧
  ∀ f : Addr → Bool, ∃ l, ∀ a, anyHolds l a = f a

/-- R44: a word store needs no alignment. Where no storage is cache-inhibited (the spec's default) every valid
form completes at every address that is admitted and clear of code, and stores the four bytes of R41 there. -/
def Obligations.WordStoreNeedsNoAlignment : Prop :=
  ∀ (i : Instr) (s : State), i.wellFormed = true → s.platform.cacheInhibited = [] →
    PcHasRoom s → Admitted s (storageAddress i s) → ClearOfCode s (storageAddress i s) →
    ∃ t, exec i s = .next t ∧ StoresWordAt s.mem t.mem (storageAddress i s) (lowWord s (sourceReg i))

/-- 20_memory.md section 4: two identical stores one after the other leave the same memory as one (the forms
without update, whose second store is at the same address). -/
def Obligations.IdenticalStoresLeaveTheSameMemory : Prop :=
  ∀ (i : Instr) (s t u : State), updatedReg i = none → exec i s = .next t → exec i t = .next u →
    u.regs = t.regs ∧ ∀ a, u.mem.readByte a = t.mem.readByte a

/-- Decision D16 of the spec (10_state.md section 6; log entry 10): a store cancels exactly the reservations
whose unit holds one of its four bytes, for every size of the unit, and makes none; none is left at the
address stored to. That units start at the multiples of their size is the model's choice (log entry 10). -/
def Obligations.StoreCancelsOverlappingReservations : Prop :=
  ∀ (i : Instr) (s t : State), exec i s = .next t →
    (∀ r, r ∈ t.resv ↔
      r ∈ s.resv ∧ ∀ k < 4, unitOf ((storageAddress i s).toNat + k) ≠ unitOf r.toNat) ∧
    storageAddress i s ∉ t.resv

/-! ### The four instructions (40_store_word.md) -/

/-- 40_store_word.md section 2: `stw` completes exactly where R100 refuses nothing. It stores the low word of `x[RS]` big-endian at
`base0(RA) + sext_64(d)` cut to 32 bits, cancels overlapping reservations, advances `pc` by 4, and writes no
register. Which accesses are refused, the cut to 32 bits and which reservations are cancelled are decisions the spec
marks as its own (D2, D5, D8, D9, D11, D15, D16), with the model's own choices of log entries 10 and 12 (log
entries 1, 5, 6, 10, 12). -/
def Obligations.StwStoresWord : Prop :=
  ∀ (s : State) (rs ra : RegNum) (d : Disp),
    let ea : Addr := ((if ra = 0#5 then 0#64 else s.readReg ra) + d.signExtend 64).setWidth 32
    (MayStore s ea →
      ∃ t, exec (.stw rs ra d) s = .next t ∧ StoreDone s t ea ((s.readReg rs).setWidth 32) ∧
        t.regs = s.regs) ∧
    (¬ MayStore s ea → ∃ r, exec (.stw rs ra d) s = .refused r)

/-- 40_store_word.md section 3: `stwu`, for `RA` not 0, completes exactly where R100 refuses nothing. It stores the low word of
`x[RS]` big-endian at `x[RA] + sext_64(d)` cut to 32 bits, and leaves that address zero-extended in `x[RA]`
and every other register as it was. Overlapping reservations are cancelled, and `pc` advances by 4. `RA = 0` is
refused. Which accesses and forms are refused, the cut to 32 bits, the zero high half and which reservations are
cancelled are decisions the spec marks as its own (D2 to D5, D8, D9, D11, D15, D16), with the model's own choices
of log entries 10 and 12 (log entries 1, 2, 3, 5, 6, 10, 12). -/
def Obligations.StwuStoresWordAndUpdates : Prop :=
  ∀ (s : State) (rs ra : RegNum) (d : Disp),
    let ea : Addr := (s.readReg ra + d.signExtend 64).setWidth 32
    (ra ≠ 0#5 → MayStore s ea →
      ∃ t, exec (.stwu rs ra d) s = .next t ∧ StoreDone s t ea ((s.readReg rs).setWidth 32) ∧
        ∀ r, t.readReg r = if r = ra then ea.setWidth 64 else s.readReg r) ∧
    (ra = 0#5 ∨ ¬ MayStore s ea → ∃ r, exec (.stwu rs ra d) s = .refused r)

/-- 40_store_word.md section 4: `stwux`, for `RA` not 0, completes exactly where R100 refuses nothing. It stores the low word of
`x[RS]` big-endian at `x[RA] + x[RB]` cut to 32 bits, and leaves that address zero-extended in `x[RA]` and
every other register as it was. Overlapping reservations are cancelled, and `pc` advances by 4. `RA = 0` is
refused. Which accesses and forms are refused, the cut to 32 bits, the zero high half and which reservations are
cancelled are decisions the spec marks as its own (D2 to D5, D8, D9, D11, D15, D16), with the model's own choices
of log entries 10 and 12 (log entries 1, 2, 3, 5, 6, 10, 12). -/
def Obligations.StwuxStoresWordAndUpdates : Prop :=
  ∀ (s : State) (rs ra rb : RegNum),
    let ea : Addr := (s.readReg ra + s.readReg rb).setWidth 32
    (ra ≠ 0#5 → MayStore s ea →
      ∃ t, exec (.stwux rs ra rb) s = .next t ∧ StoreDone s t ea ((s.readReg rs).setWidth 32) ∧
        ∀ r, t.readReg r = if r = ra then ea.setWidth 64 else s.readReg r) ∧
    (ra = 0#5 ∨ ¬ MayStore s ea → ∃ r, exec (.stwux rs ra rb) s = .refused r)

/-- 40_store_word.md section 5: `stwx` completes exactly where R100 refuses nothing. It stores the low word of `x[RS]` big-endian at
`base0(RA) + x[RB]` cut to 32 bits, cancels overlapping reservations, advances `pc` by 4, and writes no
register. Which accesses are refused, the cut to 32 bits and which reservations are cancelled are decisions the spec
marks as its own (D2, D5, D8, D9, D11, D15, D16), with the model's own choices of log entries 10 and 12 (log
entries 1, 5, 6, 10, 12). -/
def Obligations.StwxStoresWord : Prop :=
  ∀ (s : State) (rs ra rb : RegNum),
    let ea : Addr := ((if ra = 0#5 then 0#64 else s.readReg ra) + s.readReg rb).setWidth 32
    (MayStore s ea →
      ∃ t, exec (.stwx rs ra rb) s = .next t ∧ StoreDone s t ea ((s.readReg rs).setWidth 32) ∧
        t.regs = s.regs) ∧
    (¬ MayStore s ea → ∃ r, exec (.stwx rs ra rb) s = .refused r)

/-- R23: an instruction reads the low word of `x[RS]` and the registers its address is formed from, and no other
register reaches any result; a form with update writes `x[RA]`, always, and no other register is written. The value
written, the address with a high half of zero, is decision D3 of the spec (log entry 2), and the cut of the address
to 32 bits is D2 (log entry 1). -/
def Obligations.RegistersReadAndWrittenAreTheTables : Prop :=
  ∀ (i : Instr) (s s' : State),
    s.pc = s'.pc → s.mem = s'.mem → s.resv = s'.resv → s.platform = s'.platform →
    lowWord s (sourceReg i) = lowWord s' (sourceReg i) →
    (∀ r ∈ addressRegs i, s.readReg r = s'.readReg r) →
    (∃ t t', exec i s = .next t ∧ exec i s' = .next t' ∧
      t.pc = t'.pc ∧ t.mem = t'.mem ∧ t.resv = t'.resv ∧ t.platform = t'.platform ∧
      ∀ r, (updatedReg i = some r → t.readReg r = (storageAddress i s).setWidth 64 ∧
          t'.readReg r = (storageAddress i s).setWidth 64) ∧
        (updatedReg i ≠ some r → t.readReg r = s.readReg r ∧ t'.readReg r = s'.readReg r)) ∨
    (∃ e, exec i s = .refused e ∧ exec i s' = .refused e)

/-- The frame of `stw` and `stwx` (the table of 10_state.md section 1): no register, no parameter, no
reservation made (its section 6), and no byte of memory outside the four at the address the meaning computes
(20_memory.md sections 2 and 4). That this address is 32 bits wide is decision D2 of the spec (log entry 1). -/
def Obligations.PlainStoresFrame : Prop :=
  (∀ (s t : State) (rs ra : RegNum) (d : Disp), exec (.stw rs ra d) s = .next t →
    t.regs = s.regs ∧ t.platform = s.platform ∧ (∀ r ∈ t.resv, r ∈ s.resv) ∧
    ∀ a ea, effectiveAddress (base0 s ra) (displacement d) = ea →
      (a.toNat < ea.toNat ∨ ea.toNat + 4 ≤ a.toNat) → t.mem.readByte a = s.mem.readByte a) ∧
  (∀ (s t : State) (rs ra rb : RegNum), exec (.stwx rs ra rb) s = .next t →
    t.regs = s.regs ∧ t.platform = s.platform ∧ (∀ r ∈ t.resv, r ∈ s.resv) ∧
    ∀ a ea, effectiveAddress (base0 s ra) (s.readReg rb) = ea →
      (a.toNat < ea.toNat ∨ ea.toNat + 4 ≤ a.toNat) → t.mem.readByte a = s.mem.readByte a)

/-- The frame of `stwu` and `stwux` (the table of 10_state.md section 1): no register but `RA`, no parameter, no
reservation made (its section 6), and no byte of memory outside the four at the address the meaning computes
(20_memory.md sections 2 and 4). That this address is 32 bits wide is decision D2 of the spec (log entry 1). -/
def Obligations.UpdateStoresFrame : Prop :=
  (∀ (s t : State) (rs ra : RegNum) (d : Disp), exec (.stwu rs ra d) s = .next t →
    (∀ r, r ≠ ra → t.readReg r = s.readReg r) ∧ t.platform = s.platform ∧ (∀ r ∈ t.resv, r ∈ s.resv) ∧
    ∀ a ea, effectiveAddress (s.readReg ra) (displacement d) = ea →
      (a.toNat < ea.toNat ∨ ea.toNat + 4 ≤ a.toNat) → t.mem.readByte a = s.mem.readByte a) ∧
  (∀ (s t : State) (rs ra rb : RegNum), exec (.stwux rs ra rb) s = .next t →
    (∀ r, r ≠ ra → t.readReg r = s.readReg r) ∧ t.platform = s.platform ∧ (∀ r ∈ t.resv, r ∈ s.resv) ∧
    ∀ a ea, effectiveAddress (s.readReg ra) (s.readReg rb) = ea →
      (a.toNat < ea.toNat ∨ ea.toNat + 4 ≤ a.toNat) → t.mem.readByte a = s.mem.readByte a)

/-- 40_store_word.md sections 3 and 4 (R145): in an update form the store comes before the update and both use the old registers, so with
`RS = RA` (and with `RB` the same register too) the word stored is the old low word, and the register ends
with the new address. That the address is cut to 32 bits and that the register's high half is zero are decisions D2
and D3 of the spec (log entries 1 and 2). -/
def Obligations.StoreComesBeforeUpdate : Prop :=
  (∀ (s t : State) (ra : RegNum) (d : Disp), exec (.stwu ra ra d) s = .next t →
    let ea : Addr := (s.readReg ra + d.signExtend 64).setWidth 32
    StoresWordAt s.mem t.mem ea (lowWord s ra) ∧ t.readReg ra = ea.setWidth 64) ∧
  (∀ (s t : State) (ra rb : RegNum), exec (.stwux ra ra rb) s = .next t →
    let ea : Addr := (s.readReg ra + s.readReg rb).setWidth 32
    StoresWordAt s.mem t.mem ea (lowWord s ra) ∧ t.readReg ra = ea.setWidth 64)

/-- Decision D4 of the spec (30_encoding.md section 4; log entry 3): `RA = 0` in an update form is refused as
the invalid form it is, with its word, before any other check and whatever the state. -/
def Obligations.UpdateFormsRefuseBaseZero : Prop :=
  (∀ (s : State) (rs : RegNum) (d : Disp),
    exec (.stwu rs 0 d) s = .refused (.invalidForm (0x94000000#32 ||| rs.setWidth 32 <<< 21 ||| d.setWidth 32))) ∧
  (∀ (s : State) (rs rb : RegNum),
    exec (.stwux rs 0 rb) s =
      .refused (.invalidForm (0x7C00016E#32 ||| rs.setWidth 32 <<< 21 ||| rb.setWidth 32 <<< 11)))

/-- Decisions D5, D8, D9, D11, D15 and D22 of the spec (40_store_word.md section 1 lines 3 and 6; log entries 5,
6, 12): a valid form that does not complete is refused for the first reason that applies, in the order pc
room, admission, code, misaligned cache-inhibited. -/
def Obligations.StoreRefusalsComeInOrder : Prop :=
  ∀ (i : Instr) (s : State), i.wellFormed = true →
    let ea := storageAddress i s
    (¬ PcHasRoom s → exec i s = .refused (.pcOverflow s.pc)) ∧
    (PcHasRoom s → ¬ Admitted s ea → exec i s = .refused (.accessNotAdmitted ea 4)) ∧
    (PcHasRoom s → Admitted s ea → ¬ ClearOfCode s ea → exec i s = .refused (.storeToCode ea)) ∧
    (PcHasRoom s → Admitted s ea → ClearOfCode s ea → ¬ AlignedWhereInhibited s ea →
      exec i s = .refused (.misalignedCacheInhibited ea))

/-- R106: no instruction transfers control: where it completes, `pc` ends 4 further on. -/
def Obligations.NoInstructionTransfersControl : Prop :=
  ∀ (i : Instr) (s t : State), exec i s = .next t → t.pc = s.pc + 4#32

/-- Decision D19 of the spec (60_exceptions.md section 1): no instruction raises an exception or stops the
machine; it completes or is refused. -/
def Obligations.NoInstructionRaisesAnException : Prop :=
  ∀ (i : Instr) (s : State), (∃ t, exec i s = .next t) ∨ ∃ r, exec i s = .refused r

/-! ### Steps and runs (00_scope.md section 5, 70_reset_and_hazards.md) -/

/-- Decisions D1 and D6 of the spec (00_scope.md section 5, 20_memory.md section 6): away from `END_PC`, with
`pc` aligned and in `CodeRegion`, a step is the instruction that the four bytes at `pc` decode to, and nothing
around it. -/
def Obligations.StepRunsTheDecodedInstruction : Prop :=
  ∀ (s : State) (b0 b1 b2 b3 : Byte) (i : Instr),
    s.pc ≠ s.platform.endPc → s.pc.toNat % 4 = 0 → inRegions s.platform.code s.pc.toNat →
    s.mem.readByte s.pc = some b0 → s.mem.readByte (s.pc + 1#32) = some b1 →
    s.mem.readByte (s.pc + 2#32) = some b2 → s.mem.readByte (s.pc + 3#32) = some b3 →
    decode [b0, b1, b2, b3] = .ok (i, []) →
    step s = exec i s

/-- Decisions D7, D18 and D26 of the spec (20_memory.md section 6, 30_encoding.md section 4,
70_reset_and_hazards.md section 2) and the model's own outcomes (log entries 9, 13): where a step stops before it
runs an instruction, in the order end of run, alignment, region, bytes without a value, words out of scope. -/
def Obligations.StepStopsBeforeAnInstruction : Prop :=
  ∀ s : State,
    (s.pc = s.platform.endPc → step s = .fault (.endOfRun s.pc)) ∧
    (s.pc ≠ s.platform.endPc → s.pc.toNat % 4 ≠ 0 → step s = .refused (.misalignedFetch s.pc)) ∧
    (s.pc ≠ s.platform.endPc → s.pc.toNat % 4 = 0 → ¬ inRegions s.platform.code s.pc.toNat →
      step s = .refused (.fetchOutsideCode s.pc)) ∧
    (s.pc ≠ s.platform.endPc → s.pc.toNat % 4 = 0 → inRegions s.platform.code s.pc.toNat →
      (∃ k < 4, s.mem.readByte (s.pc + BitVec.ofNat 32 k) = none) →
      step s = .fault (.fetchUnwritten s.pc)) ∧
    (∀ w, s.pc ≠ s.platform.endPc → s.pc.toNat % 4 = 0 → inRegions s.platform.code s.pc.toNat →
      s.mem.read s.pc 4 = some w → decodeWord w = .error (.notInScope w) →
      step s = .refused (.notInScope w))

/-- The reset state meets the invariant, with no reservation held and nothing in memory. The values are the
model's choice (log entries 8 to 12). -/
def Obligations.ResetStateIsLawful : Prop :=
  State.reset.Lawful ∧ State.reset.resv = [] ∧ ∀ a, State.reset.mem.readByte a = none

/-- `END_PC` by default is the address just past the last word of the program (70_reset_and_hazards.md section 2,
decision D26 of the spec): its predecessor is the last byte of program text. It is a lawful `END_PC`: a multiple of
4 outside `CodeRegion`. -/
def Obligations.DefaultEndPcIsJustPastTheProgram : Prop :=
  (∀ (code : List Region) (e : Addr), defaultEndPc code = some e ↔
    inRegions code (e.toNat - 1) ∧ ∀ a, inRegions code a → a < e.toNat) ∧
  ∀ (p : Platform) (e : Addr), CodeInWords p → defaultEndPc p.code = some e →
    Platform.Lawful { p with endPc := e }

/-- The load of one word (the model's own, log entry 15) keeps the invariant, with `END_PC` a multiple of 4 outside
the `CodeRegion` it leaves (decision D26 of the spec), wherever that region leaves room for an `END_PC` at all. -/
def Obligations.LoadKeepsLawful : Prop :=
  ∀ (s : State) (nbits w : Nat), s.Lawful →
    (∃ e : Addr, e.toNat % 4 = 0 ∧ ¬ inRegions (s.withFetchWord nbits w).platform.code e.toNat) →
    (s.withFetchWord nbits w).Lawful

/-- The step after the load of one word (the model's own, log entry 15) runs that word, in every state. -/
def Obligations.LoadedWordRunsNext : Prop :=
  ∀ (s : State) (nbits w : Nat) (i : Instr), decodeWord (tableWord nbits w) = .ok i →
    step (s.withFetchWord nbits w) = exec i (s.withFetchWord nbits w)

/-- Every step keeps memory in its canonical form, `pc` a multiple of 4 (decision D7 of the spec), and the parameters
lawful (decisions D15 and D26). The canonical form of memory is the model's own choice (log entry 9), as is that a
state holds the parameters (log entry 11). -/
def Obligations.StepKeepsLawful : Prop :=
  ∀ s t : State, s.Lawful → step s = .next t → t.Lawful

/-- A run is straight-line and never wraps: after `n` steps `pc` is the number `4 n` above its start, inside
32 bits (decision D5 of the spec rules out the wrap; log entry 5). -/
def Obligations.RunAdvancesStraight : Prop :=
  ∀ (n : Nat) (s t : State), run n s = .next t → t.pc.toNat = s.pc.toNat + 4 * n

/-- Program text is immutable during a run (decision D15 of the spec, 20_memory.md section 7; log entry 6): no
step of any run changes a byte of `CodeRegion`, nor any parameter. -/
def Obligations.RunNeverChangesProgramText : Prop :=
  ∀ (n : Nat) (s t : State), run n s = .next t →
    t.platform = s.platform ∧
    ∀ a : Addr, inRegions s.platform.code a.toNat → t.mem.readByte a = s.mem.readByte a

/-- A run ends in one way (decision D26 of the spec, 70_reset_and_hazards.md section 2; log entry 13): from one
state at most one number of steps ends well, in one end state, and no run from it ends badly then. That the step in
the end state answers the fault `endOfRun` is the model's own choice (log entry 13). -/
def Obligations.RunEndsOneWay : Prop :=
  ∀ (n : Nat) (s t : State), EndsWell n s t →
    (∀ m u, EndsWell m s u → m = n ∧ u = t) ∧ (∀ m u r, ¬ EndsBadly m s u r) ∧
    step t = .fault (.endOfRun t.pc)

/-- No step at a state whose `CodeRegion` holds a program, whatever reservations it holds, comes to a fetch of a byte
that holds no value, and every step leaves that program where it is (70_reset_and_hazards.md section 2; decision D15
of the spec; the fault it rules out and the canonical form of memory in `Lawful` are the model's choice, log entry
9). -/
def Obligations.StepKeepsLaunchCode : Prop :=
  ∀ (program : Program) (s : State), s.Lawful → LaunchCode program s →
    (∀ pc, step s ≠ .fault (.fetchUnwritten pc)) ∧
    ∀ t, step s = .next t → t.Lawful ∧ LaunchCode program t

/-- No run from a launch state (70_reset_and_hazards.md section 2) comes to a fetch of a byte that holds no
value: each of its steps completes, is refused, or finds the run at its end. The two faults it speaks of, the one it
rules out and the end of the run, are the model's choices (log entries 9 and 13). -/
def Obligations.LaunchedRunStopsOnlyAtItsEndOrRefused : Prop :=
  ∀ (n : Nat) (program : Program) (held : List Addr) (s t : State), Launched program held s → run n s = .next t →
    (∃ u, step t = .next u) ∨ (∃ r, step t = .refused r) ∨
      (t.pc = t.platform.endPc ∧ step t = .fault (.endOfRun t.pc))

/-- The high halves of registers reach neither memory nor `pc` nor any outcome (20_memory.md section 1 with
decisions D2 and D3 of the spec; log entries 1 and 2): two runs from states that differ only there stay so. -/
def Obligations.HighHalvesNeverReachMemory : Prop :=
  ∀ (n : Nat) (s s' : State), SameLowHalves s s' →
    (∃ t t', run n s = .next t ∧ run n s' = .next t' ∧ SameLowHalves t t') ∨
    (∃ f, run n s = .fault f ∧ run n s' = .fault f) ∨
    (∃ r, run n s = .refused r ∧ run n s' = .refused r)
end

