-- ==== Sys2Proof/Laws/Encoding.lean ====
section
/-! SUPPORT. The words of the two forms and of four bytes, as numbers: one lemma each, so that no proof unfolds
a concatenation. -/

namespace Sys2Proof

theorem toNat_formD (opcd : BitVec 6) (rs ra : RegNum) (d : Disp) :
    (formD opcd rs ra d).toNat =
      opcd.toNat * 2 ^ 26 + rs.toNat * 2 ^ 21 + ra.toNat * 2 ^ 16 + d.toNat := by
  have := rs.isLt; have := ra.isLt; have := d.isLt
  simp only [formD, BitVec.toNat_append]
  rw [← Nat.shiftLeft_add_eq_or_of_lt (by omega), ← Nat.shiftLeft_add_eq_or_of_lt (by omega),
    ← Nat.shiftLeft_add_eq_or_of_lt (by omega)]
  simp only [Nat.shiftLeft_eq]
  omega

theorem toNat_formX (opcd : BitVec 6) (rs ra rb : RegNum) (xo : BitVec 10) (rc : BitVec 1) :
    (formX opcd rs ra rb xo rc).toNat =
      opcd.toNat * 2 ^ 26 + rs.toNat * 2 ^ 21 + ra.toNat * 2 ^ 16 + rb.toNat * 2 ^ 11 + xo.toNat * 2 +
        rc.toNat := by
  have := rs.isLt; have := ra.isLt; have := rb.isLt; have := xo.isLt; have := rc.isLt
  simp only [formX, BitVec.toNat_append]
  rw [← Nat.shiftLeft_add_eq_or_of_lt (by omega), ← Nat.shiftLeft_add_eq_or_of_lt (by omega),
    ← Nat.shiftLeft_add_eq_or_of_lt (by omega), ← Nat.shiftLeft_add_eq_or_of_lt (by omega),
    ← Nat.shiftLeft_add_eq_or_of_lt (by omega)]
  simp only [Nat.shiftLeft_eq]
  omega

theorem toNat_wordOfBytes (b0 b1 b2 b3 : Byte) :
    (wordOfBytes b0 b1 b2 b3).toNat =
      b0.toNat * 2 ^ 24 + b1.toNat * 2 ^ 16 + b2.toNat * 2 ^ 8 + b3.toNat := by
  have := b1.isLt; have := b2.isLt; have := b3.isLt
  simp only [wordOfBytes, BitVec.toNat_append]
  rw [← Nat.shiftLeft_add_eq_or_of_lt (by omega), ← Nat.shiftLeft_add_eq_or_of_lt (by omega),
    ← Nat.shiftLeft_add_eq_or_of_lt (by omega)]
  simp only [Nat.shiftLeft_eq]
  omega

/-- The bytes of a word make the word. -/
theorem wordOfBytes_bytesOfWord (w : Word) :
    wordOfBytes (w.extractLsb' 24 8) (w.extractLsb' 16 8) (w.extractLsb' 8 8) (w.extractLsb' 0 8) = w := by
  apply BitVec.eq_of_toNat_eq
  have := w.isLt
  rw [toNat_wordOfBytes]
  simp only [BitVec.extractLsb'_toNat, Nat.shiftRight_eq_div_pow]
  omega

end Sys2Proof
end

