-- ==== Sys2Proof/Laws/Memory.lean ====
section
/-! SUPPORT. The laws of memory: a read after a write, and the canonical form, for one byte, for a list of
bytes, and for a word. None of the read laws needs the canonical form. -/

namespace Sys2Proof.Machine

/-! ### One byte -/

theorem readByte_writeByte_same (m : Memory) (a : Addr) (v : Byte) :
    (Memory.writeByte m a v).readByte a = some v := by
  induction m with
  | nil => simp [Memory.writeByte, Memory.readByte]
  | cons c rest ih =>
    obtain ⟨k, b⟩ := c
    simp only [Memory.writeByte]
    split_ifs with h1 h2
    · simp [Memory.readByte]
    · simp [Memory.readByte, h2]
    · have hk : k ≠ a.toNat := fun e => h2 e.symm
      simpa [Memory.readByte, hk] using ih

theorem readByte_writeByte_other (m : Memory) {a b : Addr} (v : Byte) (h : b ≠ a) :
    (Memory.writeByte m a v).readByte b = m.readByte b := by
  have hn : a.toNat ≠ b.toNat := fun e => h (BitVec.eq_of_toNat_eq e.symm)
  induction m with
  | nil => simp [Memory.writeByte, Memory.readByte, hn]
  | cons c rest ih =>
    obtain ⟨k, x⟩ := c
    simp only [Memory.writeByte]
    split_ifs with h1 h2
    · simp [Memory.readByte, hn]
    · have hk : k ≠ b.toNat := fun e => hn (h2.trans e)
      simp [Memory.readByte, hk]
    · simp only [Memory.readByte, ih]

theorem wfFrom_writeByte (m : Memory) (a : Addr) (v : Byte) (low : Nat) (hlow : low ≤ a.toNat)
    (h : Memory.wfFrom low m = true) : Memory.wfFrom low (Memory.writeByte m a v) = true := by
  have ha := a.isLt
  induction m generalizing low with
  | nil => simpa [Memory.writeByte, Memory.wfFrom] using ⟨hlow, ha⟩
  | cons c rest ih =>
    obtain ⟨k, b⟩ := c
    simp only [Memory.wfFrom, Bool.and_eq_true, decide_eq_true_eq] at h
    obtain ⟨⟨h1, h2⟩, h3⟩ := h
    simp only [Memory.writeByte]
    split_ifs with g1 g2
    · simp only [Memory.wfFrom, Bool.and_eq_true, decide_eq_true_eq]
      exact ⟨⟨hlow, ha⟩, ⟨g1, h2⟩, h3⟩
    · simp only [Memory.wfFrom, Bool.and_eq_true, decide_eq_true_eq]
      exact ⟨⟨h1, h2⟩, h3⟩
    · simp only [Memory.wfFrom, Bool.and_eq_true, decide_eq_true_eq]
      exact ⟨⟨h1, h2⟩, ih (k + 1) (by omega) h3⟩

theorem wf_writeByte (m : Memory) (a : Addr) (v : Byte) (h : m.wf = true) :
    (m.writeByte a v).wf = true :=
  wfFrom_writeByte m a v 0 (Nat.zero_le _) h

/-! ### Bytes at rising addresses -/

theorem wf_writeBytes (bs : List Byte) (m : Memory) (a : Addr) (h : m.wf = true) :
    (m.writeBytes a bs).wf = true := by
  induction bs generalizing m a with
  | nil => exact h
  | cons b rest ih => exact ih _ _ (wf_writeByte m a b h)

theorem readByte_writeBytes_outside (bs : List Byte) (m : Memory) (a b : Addr)
    (h : ∀ k < bs.length, b ≠ a + BitVec.ofNat 32 k) :
    (m.writeBytes a bs).readByte b = m.readByte b := by
  induction bs generalizing m a with
  | nil => rfl
  | cons v rest ih =>
    have h0 : b ≠ a := by simpa using h 0 (by simp)
    rw [Memory.writeBytes, ih _ _ fun k hk => ?_, readByte_writeByte_other m v h0]
    have := h (k + 1) (by simpa using hk)
    rwa [Nat.add_comm, BitVec.ofNat_add, ← BitVec.add_assoc] at this

/-! ### `MemWrite` -/

/-- Every memory operation keeps the canonical form: `MemWrite` is the only one that changes memory. -/
theorem wf_write (m : Memory) (a : Addr) (n : Nat) (v : BitVec (8 * n)) (h : m.wf = true) :
    (m.write a n v).wf = true :=
  wf_writeBytes _ m a h

@[simp] theorem length_bytesBE (n : Nat) (v : BitVec (8 * n)) : (bytesBE n v).length = n := by
  simp [bytesBE]

theorem readByte_write_outside (m : Memory) (a b : Addr) (n : Nat) (v : BitVec (8 * n))
    (h : ∀ k < n, b ≠ a + BitVec.ofNat 32 k) : (m.write a n v).readByte b = m.readByte b :=
  readByte_writeBytes_outside _ m a b (by simpa using h)

/-- The word store of R41, written out. -/
theorem write_word (m : Memory) (a : Addr) (v : Word) :
    m.write a 4 v =
      (((m.writeByte a (v.extractLsb' 24 8)).writeByte (a + 1#32) (v.extractLsb' 16 8)).writeByte
        (a + 1#32 + 1#32) (v.extractLsb' 8 8)).writeByte (a + 1#32 + 1#32 + 1#32) (v.extractLsb' 0 8) := rfl

/-- The word read of R42, written out. -/
theorem read_word (m : Memory) (a : Addr) (b0 b1 b2 b3 : Byte)
    (h0 : m.readByte a = some b0) (h1 : m.readByte (a + 1#32) = some b1)
    (h2 : m.readByte (a + 2#32) = some b2) (h3 : m.readByte (a + 3#32) = some b3) :
    m.read a 4 = some (wordOfBytes b0 b1 b2 b3) := by
  have e2 : a + 1#32 + 1#32 = a + 2#32 := by rw [BitVec.add_assoc]; rfl
  have e3 : a + 2#32 + 1#32 = a + 3#32 := by rw [BitVec.add_assoc]; rfl
  simp only [Memory.read, Memory.readBytes, h0, h1, h2, h3, e2, e3, Option.map_some, Option.some.injEq]
  apply BitVec.eq_of_toNat_eq
  have := b0.isLt; have := b1.isLt; have := b2.isLt; have := b3.isLt
  rw [toNat_wordOfBytes]
  simp only [natOfBytesBE, List.foldl, BitVec.toNat_ofNat]
  omega

end Sys2Proof.Machine
end

