-- ==== Sys2Proof/Laws/PerInstr.lean ====
section
/-! SUPPORT. What holds of every instruction as syntax, one lemma for each constructor. -/

namespace Sys2Proof.Laws.OpcodeField

/-- The primary opcode of an instruction's word is the one the opcode map gives it (R75). -/
def Statement (i : Instr) : Prop :=
  (encodeWord i).extractLsb' 26 6 =
    match i with
    | .stw _ _ _ => 36
    | .stwu _ _ _ => 37
    | .stwux _ _ _ => 31
    | .stwx _ _ _ => 31

/-- The top six bits of a word of form D. -/
theorem opcode_formD (opcd : BitVec 6) (rs ra : RegNum) (d : Disp) :
    (formD opcd rs ra d).extractLsb' 26 6 = opcd := by
  apply BitVec.eq_of_toNat_eq
  have := opcd.isLt; have := rs.isLt; have := ra.isLt; have := d.isLt
  rw [BitVec.extractLsb'_toNat, toNat_formD, Nat.shiftRight_eq_div_pow]
  omega

/-- The top six bits of a word of form X. -/
theorem opcode_formX (opcd : BitVec 6) (rs ra rb : RegNum) (xo : BitVec 10) (rc : BitVec 1) :
    (formX opcd rs ra rb xo rc).extractLsb' 26 6 = opcd := by
  apply BitVec.eq_of_toNat_eq
  have := opcd.isLt; have := rs.isLt; have := ra.isLt; have := rb.isLt; have := xo.isLt; have := rc.isLt
  rw [BitVec.extractLsb'_toNat, toNat_formX, Nat.shiftRight_eq_div_pow]
  omega

theorem stw (rs ra : RegNum) (d : Disp) : Statement (.stw rs ra d) := opcode_formD 36 rs ra d

theorem stwu (rs ra : RegNum) (d : Disp) : Statement (.stwu rs ra d) := opcode_formD 37 rs ra d

theorem stwux (rs ra rb : RegNum) : Statement (.stwux rs ra rb) := opcode_formX 31 rs ra rb 183 0

theorem stwx (rs ra rb : RegNum) : Statement (.stwx rs ra rb) := opcode_formX 31 rs ra rb 151 0

end Sys2Proof.Laws.OpcodeField
end

