-- ==== Sys2Proof/Laws/State.lean ====
section
/-! SUPPORT. What each update of the state leaves in each field, so that no proof unfolds a record update. -/

namespace Sys2Proof.Machine

variable (s : State) (r r' : RegNum) (v : Reg64)

/-! ### Writing a register -/

@[simp] theorem writeReg_pc : (s.writeReg r v).pc = s.pc := rfl
@[simp] theorem writeReg_mem : (s.writeReg r v).mem = s.mem := rfl
@[simp] theorem writeReg_resv : (s.writeReg r v).resv = s.resv := rfl
@[simp] theorem writeReg_platform : (s.writeReg r v).platform = s.platform := rfl

theorem readReg_writeReg_same : (s.writeReg r v).readReg r = v := by
  simp [State.readReg, State.writeReg]

theorem readReg_writeReg_other (h : r' ≠ r) : (s.writeReg r v).readReg r' = s.readReg r' := by
  have hn : r.toNat ≠ r'.toNat := fun e => h (BitVec.eq_of_toNat_eq e.symm)
  simp [State.readReg, State.writeReg, Vector.getElem_set_ne, hn]

/-! ### Reading registers depends on the register file alone -/

theorem readReg_congr {s t : State} (h : t.regs = s.regs) (r : RegNum) : t.readReg r = s.readReg r := by
  simp only [State.readReg, h]

/-! ### Committing a store -/

variable (ea : Addr) (vs : Word) (update : Option RegNum)

@[simp] theorem commitStore_pc : (commitStore s ea vs update).pc = s.pc + 4#32 := by
  cases update <;> rfl
@[simp] theorem commitStore_mem : (commitStore s ea vs update).mem = s.mem.write ea 4 vs := by
  cases update <;> rfl
@[simp] theorem commitStore_resv :
    (commitStore s ea vs update).resv = killReservations s.resv ea 4 := by
  cases update <;> rfl
@[simp] theorem commitStore_platform : (commitStore s ea vs update).platform = s.platform := by
  cases update <;> rfl
@[simp] theorem commitStore_regs_none : (commitStore s ea vs none).regs = s.regs := rfl

theorem commitStore_readReg_updated (ra : RegNum) :
    (commitStore s ea vs (some ra)).readReg ra = ea.setWidth 64 := by
  exact readReg_writeReg_same _ ra _

theorem commitStore_readReg_kept (h : update ≠ some r) :
    (commitStore s ea vs update).readReg r = s.readReg r := by
  cases update with
  | none => rfl
  | some ra =>
    have hr : r ≠ ra := fun e => h (by rw [e])
    exact readReg_writeReg_other _ ra r _ hr

/-! ### Loading one instruction -/

@[simp] theorem withFetchWord_regs (nbits w : Nat) : (s.withFetchWord nbits w).regs = s.regs := rfl
@[simp] theorem withFetchWord_resv (nbits w : Nat) : (s.withFetchWord nbits w).resv = s.resv := rfl
@[simp] theorem withFetchWord_pc (nbits w : Nat) :
    (s.withFetchWord nbits w).pc = s.pc &&& 0xFFFFFFFC#32 := rfl
@[simp] theorem withFetchWord_mem (nbits w : Nat) :
    (s.withFetchWord nbits w).mem = s.mem.write (s.pc &&& 0xFFFFFFFC#32) 4 (tableWord nbits w) := rfl
@[simp] theorem withFetchWord_code (nbits w : Nat) :
    (s.withFetchWord nbits w).platform.code =
      { base := s.pc &&& 0xFFFFFFFC#32, size := 4 } :: s.platform.code := rfl
@[simp] theorem withFetchWord_notAdmitted (nbits w : Nat) :
    (s.withFetchWord nbits w).platform.notAdmitted = s.platform.notAdmitted := rfl
@[simp] theorem withFetchWord_cacheInhibited (nbits w : Nat) :
    (s.withFetchWord nbits w).platform.cacheInhibited = s.platform.cacheInhibited := rfl
theorem withFetchWord_endPc (nbits w : Nat) :
    (s.withFetchWord nbits w).platform.endPc =
      if s.platform.endPc = s.pc &&& 0xFFFFFFFC#32 then
        endPcOutside (s.withFetchWord nbits w).platform.code ((s.pc &&& 0xFFFFFFFC#32) + 4#32)
      else s.platform.endPc := rfl

end Sys2Proof.Machine
end

