-- ==== Sys2Proof/Laws/StoreWord.lean ====
section
/-! SUPPORT. The access check in the terms of Safety, and the one inversion lemma of the shared store: all it
can answer. Provers cite these and need not unfold the operations. -/

namespace Sys2Proof.Machine

/-! ### Regions -/

theorem anyHolds_iff (rs : List Region) (a : Addr) : anyHolds rs a = true ↔ inRegions rs a.toNat := by
  simp [anyHolds, Region.holds]

/-- A byte of an access that stays inside the space, as a number. -/
theorem toNat_add_of_fits (a : Addr) (k n : Nat) (hk : k < n) (hn : a.toNat + n ≤ 2 ^ 32) :
    (a + BitVec.ofNat 32 k).toNat = a.toNat + k := by
  rw [BitVec.toNat_add, BitVec.toNat_ofNat]
  omega

theorem touches_iff (rs : List Region) (a : Addr) (n : Nat) (hn : a.toNat + n ≤ 2 ^ 32) :
    touches rs a n = true ↔ ∃ k < n, inRegions rs (a.toNat + k) := by
  simp only [touches, List.any_eq_true, List.mem_range, anyHolds_iff]
  constructor
  · rintro ⟨k, hk, h⟩
    exact ⟨k, hk, by rwa [toNat_add_of_fits a k n hk hn] at h⟩
  · rintro ⟨k, hk, h⟩
    exact ⟨k, hk, by rwa [toNat_add_of_fits a k n hk hn]⟩

theorem touches_eq_false_iff (rs : List Region) (a : Addr) (n : Nat) (hn : a.toNat + n ≤ 2 ^ 32) :
    touches rs a n = false ↔ ∀ k < n, ¬ inRegions rs (a.toNat + k) := by
  rw [← Bool.not_eq_true, touches_iff rs a n hn]
  push Not
  rfl

theorem anyAccess_iff (xs : List AccessRange) (a : Addr) (n : Nat) :
    (xs.any fun x => AccessRange.holds x a n) = true ↔ inAccesses xs a.toNat n := by
  simp [AccessRange.holds, Region.holds]

theorem admits_iff (s : State) (ea : Addr) : admits s.platform ea 4 = true ↔ Admitted s ea := by
  rw [admits, Bool.and_eq_true, Bool.not_eq_true', ← Bool.not_eq_true, anyAccess_iff, decide_eq_true_eq]
  exact and_congr_left' (by omega)

/-- What the access check answers, reason by reason, in the order of R100 line 6. -/
theorem accessRefusal_cases (s : State) (ea : Addr) :
    (¬ Admitted s ea ∧ accessRefusal s.platform ea = some (.accessNotAdmitted ea 4)) ∨
    (Admitted s ea ∧ ¬ ClearOfCode s ea ∧ accessRefusal s.platform ea = some (.storeToCode ea)) ∨
    (Admitted s ea ∧ ClearOfCode s ea ∧ ¬ AlignedWhereInhibited s ea ∧
      accessRefusal s.platform ea = some (.misalignedCacheInhibited ea)) ∨
    (Admitted s ea ∧ ClearOfCode s ea ∧ AlignedWhereInhibited s ea ∧
      accessRefusal s.platform ea = none) := by
  by_cases hA : Admitted s ea
  · have hn : ea.toNat + 4 ≤ 2 ^ 32 := by have := hA.1; omega
    have ha := (admits_iff s ea).mpr hA
    by_cases hC : ClearOfCode s ea
    · have hc := (touches_eq_false_iff _ _ _ hn).mpr hC
      by_cases hI : AlignedWhereInhibited s ea
      · refine .inr (.inr (.inr ⟨hA, hC, hI, ?_⟩))
        obtain h | h := hI
        · simp [accessRefusal, ha, hc, h]
        · simp [accessRefusal, ha, hc, (touches_eq_false_iff _ _ _ hn).mpr h]
      · refine .inr (.inr (.inl ⟨hA, hC, hI, ?_⟩))
        rw [not_or, ← touches_eq_false_iff _ _ _ hn, Bool.not_eq_false] at hI
        simp [accessRefusal, ha, hc, hI.1, hI.2]
    · refine .inr (.inl ⟨hA, hC, ?_⟩)
      rw [ClearOfCode, ← touches_eq_false_iff _ _ _ hn, Bool.not_eq_false] at hC
      simp [accessRefusal, ha, hC]
  · refine .inl ⟨hA, ?_⟩
    rw [← admits_iff, Bool.not_eq_true] at hA
    simp [accessRefusal, hA]

/-! ### Memory, reservations and registers after a store -/

/-- The word store of R41 in the terms of Safety. -/
theorem storesWordAt_write (m : Memory) (ea : Addr) (v : Word) :
    StoresWordAt m (m.write ea 4 v) ea v := by
  have e1 : ea + 1#32 + 1#32 = ea + 2#32 := by rw [BitVec.add_assoc]; rfl
  have e2 : ea + 2#32 + 1#32 = ea + 3#32 := by rw [BitVec.add_assoc]; rfl
  have apart (x y : BitVec 32) (h : x ≠ y) : ea + x ≠ ea + y := fun e => h (by simpa using e)
  have apart0 (x : BitVec 32) (h : x ≠ 0#32) : ea ≠ ea + x := fun e => h (by simpa using e.symm)
  rw [write_word, e1, e2]
  refine ⟨?_, ?_, ?_, ?_, fun a h0 h1 h2 h3 => ?_⟩
  · rw [readByte_writeByte_other _ _ (apart0 3#32 (by decide)),
      readByte_writeByte_other _ _ (apart0 2#32 (by decide)),
      readByte_writeByte_other _ _ (apart0 1#32 (by decide)), readByte_writeByte_same]
  · rw [readByte_writeByte_other _ _ (apart 1#32 3#32 (by decide)),
      readByte_writeByte_other _ _ (apart 1#32 2#32 (by decide)), readByte_writeByte_same]
  · rw [readByte_writeByte_other _ _ (apart 2#32 3#32 (by decide)), readByte_writeByte_same]
  · rw [readByte_writeByte_same]
  · rw [readByte_writeByte_other _ _ h3, readByte_writeByte_other _ _ h2, readByte_writeByte_other _ _ h1,
      readByte_writeByte_other _ _ h0]

/-- `ReservationKill` of a store that stays inside the space, in the terms of Safety. -/
theorem killReservations_eq (resv : List Addr) (ea : Addr) (h : ea.toNat + 4 ≤ 2 ^ 32) :
    killReservations resv ea 4 = reservationsLeft resv ea := by
  simp only [killReservations, reservationsLeft]
  apply List.filter_congr
  intro r _
  rw [Bool.eq_iff_iff]
  simp only [Bool.not_eq_true', List.any_eq_false, List.all_eq_true, List.mem_range, beq_iff_eq,
    bne_iff_ne, reservationUnit, unitOf]
  constructor <;> intro H k hk <;> have := H k hk <;> rwa [toNat_add_of_fits ea k 4 hk h] at *

/-- What a store leaves in every field but the registers. -/
theorem commitStore_done (s : State) (ea : Addr) (v : Word) (u : Option RegNum) (h : MayStore s ea) :
    StoreDone s (commitStore s ea v u) ea v := by
  have hn : ea.toNat + 4 ≤ 2 ^ 32 := by have := h.2.1.1; omega
  refine ⟨?_, ?_, commitStore_pc .., commitStore_platform ..⟩
  · rw [commitStore_mem]
    exact storesWordAt_write s.mem ea v
  · rw [commitStore_resv, killReservations_eq _ _ hn]

/-- What a store leaves in the registers (R100 line 9). -/
theorem commitStore_readReg (s : State) (ea : Addr) (v : Word) (u : Option RegNum) (r : RegNum) :
    (commitStore s ea v u).readReg r = if u = some r then ea.setWidth 64 else s.readReg r := by
  split_ifs with h
  · subst h
    exact commitStore_readReg_updated s ea v r
  · exact commitStore_readReg_kept s r ea v u h

/-! ### The shared store -/

/-- Everything the shared store can answer. -/
theorem storeWord_cases (rs : RegNum) (b o : Reg64) (u : Option RegNum) (s : State) :
    (MayStore s (effectiveAddress b o) ∧
      storeWord rs b o u s = .next (commitStore s (effectiveAddress b o) (storedWord s rs) u)) ∨
    (¬ MayStore s (effectiveAddress b o) ∧ ∃ r, storeWord rs b o u s = .refused r) := by
  by_cases hp : s.pc = 0xFFFFFFFC#32
  · exact .inr ⟨fun h => h.1 hp, .pcOverflow s.pc, by simp [storeWord, hp]⟩
  · simp only [storeWord, if_neg hp]
    rcases accessRefusal_cases s (effectiveAddress b o) with
      ⟨h, e⟩ | ⟨h1, h, e⟩ | ⟨h1, h2, h, e⟩ | ⟨h1, h2, h3, e⟩ <;> simp only [e]
    · exact .inr ⟨fun m => h m.2.1, _, rfl⟩
    · exact .inr ⟨fun m => h m.2.2.1, _, rfl⟩
    · exact .inr ⟨fun m => h m.2.2.2, _, rfl⟩
    · exact .inl ⟨⟨hp, h1, h2, h3⟩, trivial⟩

theorem extractLsb'_zero_eq_setWidth (r : Reg64) : r.extractLsb' 0 32 = r.setWidth 32 := by
  apply BitVec.eq_of_toNat_eq
  simp

theorem effectiveAddress_eq (b o : Reg64) : effectiveAddress b o = (b + o).setWidth 32 := by
  simp [effectiveAddress, extractLsb'_zero_eq_setWidth]

theorem storedWord_eq (s : State) (rs : RegNum) : storedWord s rs = lowWord s rs := by
  simp [storedWord, lowWord, extractLsb'_zero_eq_setWidth]

/-- Everything an instruction can answer: a valid form is done at its storage address exactly where R100
refuses nothing, and every other case is a refusal. -/
theorem exec_cases (i : Instr) (s : State) :
    (i.wellFormed = true ∧ MayStore s (storageAddress i s) ∧
      exec i s = .next (commitStore s (storageAddress i s) (lowWord s (sourceReg i)) (updatedReg i))) ∨
    ((i.wellFormed = false ∨ ¬ MayStore s (storageAddress i s)) ∧ ∃ r, exec i s = .refused r) := by
  have key : ∀ (rs : RegNum) (b o : Reg64) (u : Option RegNum), (b + o) = storageSum i s →
      rs = sourceReg i → u = updatedReg i → i.wellFormed = true → exec i s = storeWord rs b o u s →
      (i.wellFormed = true ∧ MayStore s (storageAddress i s) ∧
        exec i s = .next (commitStore s (storageAddress i s) (lowWord s (sourceReg i)) (updatedReg i))) ∨
      ((i.wellFormed = false ∨ ¬ MayStore s (storageAddress i s)) ∧ ∃ r, exec i s = .refused r) := by
    intro rs b o u hsum hrs hu hwf he
    have hea : effectiveAddress b o = storageAddress i s := by
      rw [effectiveAddress_eq, hsum, storageAddress]
    rcases storeWord_cases rs b o u s with ⟨hm, e⟩ | ⟨hm, e⟩
    · refine .inl ⟨hwf, hea ▸ hm, ?_⟩
      rw [he, e, hea, storedWord_eq, hrs, hu]
    · exact .inr ⟨.inr (hea ▸ hm), he ▸ e⟩
  cases i with
  | stw rs ra d => exact key rs _ _ none rfl rfl rfl rfl rfl
  | stwx rs ra rb => exact key rs _ _ none rfl rfl rfl rfl rfl
  | stwu rs ra d =>
    by_cases h : ra = 0#5
    · exact .inr ⟨.inl (by simp [Instr.wellFormed, h]), _, by simp [exec, execStwu, h]; rfl⟩
    · exact key rs _ _ (some ra) rfl rfl rfl (by simp [Instr.wellFormed, h]) (by simp only [exec, execStwu, if_neg h]; rfl)
  | stwux rs ra rb =>
    by_cases h : ra = 0#5
    · exact .inr ⟨.inl (by simp [Instr.wellFormed, h]), _, by simp [exec, execStwux, h]; rfl⟩
    · exact key rs _ _ (some ra) rfl rfl rfl (by simp [Instr.wellFormed, h]) (by simp only [exec, execStwux, if_neg h])

/-- What a next state of an instruction is. -/
theorem exec_next {i : Instr} {s t : State} (h : exec i s = .next t) :
    i.wellFormed = true ∧ MayStore s (storageAddress i s) ∧
      t = commitStore s (storageAddress i s) (lowWord s (sourceReg i)) (updatedReg i) := by
  rcases exec_cases i s with ⟨hw, hm, e⟩ | ⟨_, r, e⟩
  · rw [e] at h
    exact ⟨hw, hm, (Host.Outcome.next.inj h).symm⟩
  · rw [e] at h
    cases h

end Sys2Proof.Machine
end

