-- ==== Sys2Proof/Laws/Step.lean ====
section
/-! SUPPORT. The inversion of a step, the successor of a run, and the end of program text. -/

namespace Sys2Proof.Machine

/-- What a next state of a step is: the next state of the instruction fetched at an aligned `pc` inside
`CodeRegion`, away from `END_PC`. -/
theorem step_next {s t : State} (h : step s = .next t) :
    s.pc ≠ s.platform.endPc ∧ s.pc.toNat % 4 = 0 ∧ inRegions s.platform.code s.pc.toNat ∧
      ∃ w i, s.mem.read s.pc 4 = some w ∧ decodeWord w = .ok i ∧ exec i s = .next t := by
  unfold step at h
  split at h
  · cases h
  · rename_i hend
    split at h
    · cases h
    · cases h
    · rename_i w hf
      unfold fetch at hf
      split_ifs at hf with h1 h2
      split at hf
      · rename_i w' hr
        cases hf
        split at h
        · rename_i i hd
          exact ⟨hend, not_not.mp h1, (anyHolds_iff _ _).mp (by simpa using h2), w, i, hr, hd, h⟩
        · cases h
      · cases hf

/-- A run of one step more goes through the first step's next state. -/
theorem run_succ_next {n : Nat} {s t : State} (h : run (n + 1) s = .next t) :
    ∃ u, step s = .next u ∧ run n u = .next t := by
  unfold run at h
  split at h
  · exact ⟨_, ‹_›, h⟩
  · cases h
  · cases h

/-- What every step keeps, relative to where it starts, every run keeps. -/
theorem run_induction {P : State → State → Prop} (refl : ∀ s, P s s)
    (trans : ∀ {s u t}, step s = .next u → P u t → P s t) :
    ∀ (n : Nat) {s t : State}, run n s = .next t → P s t
  | 0, s, _, h => Host.Outcome.next.inj h ▸ refl s
  | n + 1, _, _, h =>
    let ⟨_, hstep, hrun⟩ := run_succ_next h
    trans hstep (run_induction refl trans n hrun)

/-- The host's run, one step more, at any machine. -/
theorem coreRun_succ (M : Host.Core) (n : Nat) (s : M.State) :
    (∀ u, M.step s = .next u → M.run (n + 1) s = M.run n u) ∧
    (∀ f, M.step s = .fault f → M.run (n + 1) s = .fault f) ∧
    (∀ r, M.step s = .refused r → M.run (n + 1) s = .refused r) := by
  refine ⟨fun u h => ?_, fun f h => ?_, fun r h => ?_⟩ <;> simp [Host.Core.run, h]

/-- The run of Safety is the host's. -/
theorem run_eq_core_run (n : Nat) (s : State) : run n s = Host.Core.run Sys2Proof.core n s := by
  induction n generalizing s with
  | zero => rfl
  | succ n ih =>
    obtain ⟨hnext, hfault, hrefused⟩ := coreRun_succ Sys2Proof.core n s
    cases h : step s with
    | next u => exact (by simp [run, h] : run (n + 1) s = run n u).trans ((ih u).trans (hnext u h).symm)
    | fault f => exact (by simp [run, h] : run (n + 1) s = .fault f).trans (hfault f h).symm
    | refused r => exact (by simp [run, h] : run (n + 1) s = .refused r).trans (hrefused r h).symm

/-! ### The end of a run -/

/-- What the end of the program text is: no byte of it lies at or above, and the one below is text unless there is
none. -/
theorem codeEnd_spec (code : List Region) :
    (∀ a, inRegions code a → a < codeEnd code) ∧ (codeEnd code ≠ 0 → inRegions code (codeEnd code - 1)) := by
  induction code with
  | nil => exact ⟨fun a ⟨_, h, _⟩ => absurd h List.not_mem_nil, fun h => absurd rfl h⟩
  | cons r rest ih =>
    obtain ⟨below, last⟩ := ih
    simp only [codeEnd]
    refine ⟨fun a ⟨x, hx, hlo, hhi⟩ => ?_, fun h => ?_⟩
    · rcases List.mem_cons.mp hx with rfl | hx
      · rw [if_neg (by omega)]
        omega
      · have := below a ⟨x, hx, hlo, hhi⟩
        split_ifs <;> omega
    · have tail (e : codeEnd rest ≠ 0) : inRegions (r :: rest) (codeEnd rest - 1) :=
        (last e).imp fun _ hx => ⟨List.mem_cons_of_mem r hx.1, hx.2⟩
      split_ifs at h ⊢ with hz
      · exact tail h
      · rcases Nat.le_total (codeEnd rest) (r.base.toNat + r.size) with hle | hle
        · rw [max_eq_left hle]
          exact ⟨r, List.mem_cons_self, by omega, by omega⟩
        · rw [max_eq_right hle] at h ⊢
          exact tail h

/-- Everything the choice of an `END_PC` can answer: the default or the end of a range, outside the code; or the
spare, where the end of every range is code. -/
theorem endPcOutside_cases (code : List Region) (spare : Addr) :
    (¬ inRegions code (endPcOutside code spare).toNat ∧
      (defaultEndPc code = some (endPcOutside code spare) ∨
        ∃ r ∈ code, r.base + BitVec.ofNat 32 r.size = endPcOutside code spare)) ∨
    (endPcOutside code spare = spare ∧
      ∀ r ∈ code, inRegions code (r.base + BitVec.ofNat 32 r.size).toNat) := by
  unfold endPcOutside
  cases h : List.find? (fun a => !anyHolds code a)
    ((defaultEndPc code).toList ++ code.map fun r => r.base + BitVec.ofNat 32 r.size) with
  | none =>
    refine .inr ⟨rfl, fun r hr => ?_⟩
    rw [List.find?_eq_none] at h
    have := h _ (List.mem_append_right _ (List.mem_map_of_mem hr))
    rw [← anyHolds_iff]
    simpa using this
  | some e =>
    refine .inl ⟨?_, ?_⟩
    · have := List.find?_some h
      rw [Option.getD_some, ← anyHolds_iff]
      simpa using this
    · simpa [List.mem_append, Option.mem_toList, List.mem_map, eq_comm] using List.mem_of_find?_eq_some h

end Sys2Proof.Machine
end

