-- ==== Sys2Proof/Tests/Slice0.lean ====
section
/-! SUPPORT. The model's own tests. Every expected result is a vector of 95_test_vectors.md (named in the test) or
a word written out from the encoding tables; the witnesses at the end meet the hypotheses of the obligations. -/

namespace Sys2Proof.Tests

open Sys2Proof.Machine

/-- The vectors' setting (95_test_vectors.md Part 2): the reset state with the code region they name, and these
registers. -/
def setting (regs : List (RegNum × Reg64)) : State :=
  regs.foldl (fun s (r, v) => s.writeReg r v)
    { State.reset with platform := { State.reset.platform with code := [{ base := 0x00100000, size := 4 }] } }

/-- The setting with cache-inhibited storage at 0x8000 to 0x8FFF (Z7). -/
def inhibitedSetting (regs : List (RegNum × Reg64)) : State :=
  { setting regs with
    platform := { (setting regs).platform with cacheInhibited := [{ base := 0x8000, size := 0x1000 }] } }

/-- Whether an outcome is a next state with a property. -/
def reaches (o : Host.Outcome State Fault Refusal) (p : State → Bool) : Bool :=
  match o with
  | .next t => p t
  | _ => false

/-- Whether an outcome is one refusal. -/
def refuses (o : Host.Outcome State Fault Refusal) (r : Refusal) : Bool :=
  match o with
  | .refused r' => r' == r
  | _ => false

/-- Whether an outcome is one fault. -/
def faults (o : Host.Outcome State Fault Refusal) (f : Fault) : Bool :=
  match o with
  | .fault f' => f' == f
  | _ => false

/-! ### Well-formedness -/

theorem test_wellFormed_stwu_base_zero : (Instr.stwu 3 0 8).wellFormed = false := by decide
theorem test_wellFormed_stwux_base_zero : (Instr.stwux 3 0 5).wellFormed = false := by decide
theorem test_wellFormed_stw_base_zero : (Instr.stw 3 0 8).wellFormed = true := by decide

/-! ### Decoding, from words written out field by field (R71, R72) -/

/-- `stw r3, 8(r4)`: OPCD 36, RS 3, RA 4, D 8. -/
theorem test_decode_stw :
    decodeWord 0b100100_00011_00100_0000000000001000#32 = .ok (.stw 3 4 8) := by decide

/-- `stwu r1, -16(r1)`: OPCD 37, RS 1, RA 1, D 0xFFF0, from its bytes in memory (R85). -/
theorem test_decode_stwu_bytes :
    decode [0x94#8, 0x21#8, 0xFF#8, 0xF0#8, 0x00#8] = .ok (.stwu 1 1 0xFFF0, [0x00#8]) := by decide

/-- `stwux r3, r4, r5`: OPCD 31, RS 3, RA 4, RB 5, XO 183, Rc 0. -/
theorem test_decode_stwux :
    decodeWord 0b011111_00011_00100_00101_0010110111_0#32 = .ok (.stwux 3 4 5) := by decide

/-- `stwx r3, r4, r5`: OPCD 31, RS 3, RA 4, RB 5, XO 151, Rc 0. -/
theorem test_decode_stwx :
    decodeWord 0b011111_00011_00100_00101_0010010111_0#32 = .ok (.stwx 3 4 5) := by decide

/-- `Rc = 1` (E9), and too few bytes. -/
theorem test_decode_refuses :
    decodeWord 0x7C64292F#32 = .error (.notInScope 0x7C64292F#32) ∧
    decode [0x90#8, 0x64#8, 0x00#8] = .error (.truncated 3) := by decide

theorem test_decodeTableWord :
    decodeTableWord 32 0x7C64296E = some (.stwux 3 4 5) ∧ decodeTableWord 32 0x7C64296F = none := by decide

/-- E1, E2, E5, and the invalid form E6, as lines of assembly. -/
theorem test_assemble :
    assemble (.stw 3 8 4) = some 0x90640008#32 ∧ assemble (.stw 3 (-4) 0) = some 0x9060FFFC#32 ∧
      assemble (.stwu 1 (-16) 1) = some 0x9421FFF0#32 ∧ assemble (.stwu 3 8 0) = none ∧
      assemble (.stw 3 32768 4) = none ∧ assemble (.stwx 3 32 5) = none ∧
      disassemble (.stw 3 0 0xFFFC) = .stw 3 (-4) 0 := by decide

/-! ### The four instructions -/

/-- W6: the carry out of bit 31 is dropped. -/
theorem test_stw_W6 :
    reaches (exec (.stw 3 4 1) (setting [(3, 0xA1B2C3D4), (4, 0xFFFFFFFF)])) (fun t =>
      t.mem == [(0, 0xA1), (1, 0xB2), (2, 0xC3), (3, 0xD4)] && t.pc == 0x00100004) = true := by decide

/-- W2: base zero whatever `r0` holds, negative displacement, the top word of the space. -/
theorem test_stw_W2 :
    reaches (exec (.stw 3 0 0xFFFC) (setting [(0, 0x5555), (3, 0x1122334455667788)])) (fun t =>
      t.mem.read 0xFFFFFFFC 4 == some 0x55667788#32) = true := by decide

/-- U2: the high half of the base register is cleared, and the old register is what is stored. -/
theorem test_stwu_U2 :
    reaches (exec (.stwu 1 1 0xFFF0) (setting [(1, 0xFFFFFFFF70001000)])) (fun t =>
      t.mem.read 0x70000FF0 4 == some 0x70001000#32 && t.readReg 1 == 0x0000000070000FF0) = true := by decide

/-- U7: refused at the top of the space. -/
theorem test_stwu_U7 :
    refuses (exec (.stwu 3 4 4) (setting [(3, 0x99), (4, 0xFFFFFFFA)]))
      (.accessNotAdmitted 0xFFFFFFFE 4) = true := by decide

/-- Y5: the index acts as -4, and the update clears the high half. -/
theorem test_stwux_Y5 :
    reaches (exec (.stwux 3 4 5) (setting [(3, 0x99), (4, 0x1234567800001000), (5, 0xFFFFFFFFFFFFFFFC)]))
      (fun t => t.mem.read 0xFFC 4 == some 0x99#32 && t.readReg 4 == 0xFFC) = true := by decide

/-- Y4: `RA = 0` is an invalid form. -/
theorem test_stwux_Y4 :
    refuses (exec (.stwux 3 0 5) (setting [(0, 0x1000), (3, 0x99), (5, 0x10)]))
      (.invalidForm 0x7C60296E) = true := by decide

/-- X2: base zero is not `r0`, and the index's high half is dropped. -/
theorem test_stwx_X2 :
    reaches (exec (.stwx 3 0 5) (setting [(0, 0x7777), (3, 0xA1B2C3D4), (5, 0x100004000)])) (fun t =>
      t.mem.read 0x4000 4 == some 0xA1B2C3D4#32) = true := by decide

/-- X5: `r0` as index is an ordinary register. -/
theorem test_stwx_X5 :
    reaches (exec (.stwx 3 4 0) (setting [(0, 0x40), (3, 0xA1B2C3D4), (4, 0x1000)])) (fun t =>
      t.mem.read 0x1040 4 == some 0xA1B2C3D4#32) = true := by decide

/-! ### Refusals that depend on where the instruction stands -/

/-- Z2: the last byte of the word would fall on code. -/
theorem test_store_to_code_Z2 :
    refuses (exec (.stw 3 4 0) (setting [(3, 0x99), (4, 0x000FFFFD)])) (.storeToCode 0x000FFFFD) = true := by
  decide

/-- Z3: the word ends just below code. -/
theorem test_store_below_code_Z3 :
    reaches (exec (.stw 3 4 0) (setting [(3, 0x99), (4, 0x000FFFFC)])) (fun t =>
      t.mem.read 0x000FFFFC 4 == some 0x99#32) = true := by decide

/-- Z4: no room for `pc + 4`. -/
theorem test_pc_overflow_Z4 :
    refuses (exec (.stw 3 4 0) { setting [(4, 0x2000)] with pc := 0xFFFFFFFC })
      (.pcOverflow 0xFFFFFFFC) = true := by decide

/-- Z7 and Z8: cache-inhibited storage refuses a misaligned store and takes an aligned one. -/
theorem test_cache_inhibited_Z7_Z8 :
    refuses (exec (.stw 3 4 0) (inhibitedSetting [(4, 0x8001)])) (.misalignedCacheInhibited 0x8001) = true ∧
    reaches (exec (.stw 3 4 0) (inhibitedSetting [(3, 0x99), (4, 0x8004)]))
      (fun t => t.mem.read 0x8004 4 == some 0x99#32) = true := by decide

/-- The setting with some word stores not admitted. -/
def refusingSetting (starts : Region) (regs : List (RegNum × Reg64)) : State :=
  { setting regs with
    platform := { (setting regs).platform with notAdmitted := [{ bytes := 4, starts := starts }] } }

/-- Z9: the word crosses into a range that is not admitted, 0x9000 to 0x9FFF; a word store that touches it starts
at 0x8FFD to 0x9FFF. -/
theorem test_not_admitted_Z9 :
    refuses (exec (.stwu 3 4 0) (refusingSetting { base := 0x8FFD, size := 0x1003 } [(4, 0x8FFE)]))
      (.accessNotAdmitted 0x8FFE 4) = true := by decide

/-- R47: an `Admits` that refuses the word store at 0x1002 and admits those at 0x1000 and 0x1004. -/
theorem test_not_admitted_by_address :
    let s := refusingSetting { base := 0x1002, size := 1 } [(4, 0x1000)]
    refuses (exec (.stw 3 4 2) s) (.accessNotAdmitted 0x1002 4) = true ∧
      reaches (exec (.stw 3 4 0) s) (fun _ => true) = true ∧
      reaches (exec (.stw 3 4 4) s) (fun _ => true) = true := by decide

/-! ### Steps -/

/-- The first instruction of program P1, loaded where the reset state fetches, runs as the next step. -/
theorem test_step_runs_loaded_word :
    reaches (step ((State.reset.writeReg 1 0x70002000).withFetchWord 32 0x9421FFE0)) (fun t =>
      t.mem.read 0x70001FE0 4 == some 0x70002000#32 && t.readReg 1 == 0x70001FE0 &&
      t.pc == 0x00100004) = true := by decide

/-- Z5, Z6, Y7, and the end of the run. -/
theorem test_step_stops :
    refuses (step { setting [] with pc := 0x00100002 }) (.misalignedFetch 0x00100002) = true ∧
    refuses (step { setting [] with pc := 0x00200000 }) (.fetchOutsideCode 0x00200000) = true ∧
    refuses (step (State.reset.withFetchWord 32 0x7C64296F)) (.notInScope 0x7C64296F) = true ∧
    faults (step { setting [] with pc := 0x00100004 }) (.endOfRun 0x00100004) = true ∧
    faults (step (setting [])) (.fetchUnwritten 0x00100000) = true := by decide

/-- R143: the default `END_PC` is the address just past the last word (0x0010_0004 in the vectors' setting); a load
that finds `END_PC` in its way, with code on both sides, moves it past all of it, or past the end of a range where
code reaches the top of the space. -/
theorem test_endPc :
    defaultEndPc (setting []).platform.code = some 0x00100004#32 ∧ defaultEndPc [] = none ∧
    (State.withFetchWord { State.reset with platform := { State.reset.platform with
      endPc := 0x00100000, code := [{ base := 0x00100004, size := 8 }, { base := 0x000FFFF0, size := 16 }] } }
      32 0x90000000).platform.endPc = 0x0010000C#32 ∧
    (State.withFetchWord { State.reset with pc := 0xFFFFFFFC, platform := { State.reset.platform with
      endPc := 0xFFFFFFFC, code := [{ base := 0, size := 8 }] } } 32 0x90000000).platform.endPc = 8#32 := by decide

/-- The byte-order cross-check after W1 (R42, R43). -/
theorem test_byte_order_cross_check :
    let m := Memory.write [] 0x1008 4 0x55667788#32
    m.read 0x1008 4 = some 0x55667788#32 ∧ m.read 0x1008 1 = some 0x55#8 ∧
      m.read 0x100A 2 = some 0x7788#16 := by decide

/-! ### Witnesses: states and operands that meet the hypotheses of the obligations -/

/-- StwStoresWord: both clauses, at the last address that may be stored to and the one after it. -/
theorem witness_stw_MayStore :
    MayStore (setting []) (storageAddress (.stw 3 0 0xFFFC) (setting [])) ∧
      ¬ MayStore (setting []) (storageAddress (.stw 3 0 0xFFFD) (setting [])) := by decide

/-- StwxStoresWord: both clauses, at the last address that may be stored to and the one after it. -/
theorem witness_stwx_MayStore :
    MayStore (setting [(5, 0xFFFFFFFC)]) (storageAddress (.stwx 3 0 5) (setting [(5, 0xFFFFFFFC)])) ∧
      ¬ MayStore (setting [(5, 0xFFFFFFFD)])
        (storageAddress (.stwx 3 0 5) (setting [(5, 0xFFFFFFFD)])) := by decide

/-- `stwu r1, -16(r1)` (U1): StwuStoresWordAndUpdates' first clause. -/
theorem witness_stwu_MayStore :
    (1 : RegNum) ≠ 0#5 ∧
      MayStore (setting [(1, 0x70001000)])
        (((setting [(1, 0x70001000)]).readReg 1 + (0xFFF0#16).signExtend 64).setWidth 32) := by decide

/-- Y1: StwuxStoresWordAndUpdates' first clause. -/
theorem witness_stwux_MayStore :
    (4 : RegNum) ≠ 0#5 ∧
      MayStore (setting [(4, 0x1000), (5, 0x20)])
        (((setting [(4, 0x1000), (5, 0x20)]).readReg 4 +
          (setting [(4, 0x1000), (5, 0x20)]).readReg 5).setWidth 32) := by decide

/-- U7: StwuStoresWordAndUpdates' refusal clause, where `RA` is not 0. -/
theorem witness_update_refused :
    (4 : RegNum) ≠ 0#5 ∧ ¬ MayStore (setting [(4, 0xFFFFFFFA)])
      (((setting [(4, 0xFFFFFFFA)]).readReg 4 + (4#16).signExtend 64).setWidth 32) := by decide

/-- Y8: StwuxStoresWordAndUpdates' refusal clause, where `RA` is not 0. -/
theorem witness_stwux_refused :
    (4 : RegNum) ≠ 0#5 ∧ ¬ MayStore (setting [(4, 0xFFFFFFFF), (5, 0xFFFFFFFF)])
      (((setting [(4, 0xFFFFFFFF), (5, 0xFFFFFFFF)]).readReg 4 +
        (setting [(4, 0xFFFFFFFF), (5, 0xFFFFFFFF)]).readReg 5).setWidth 32) := by decide

/-- W7: WordStoreNeedsNoAlignment, at a misaligned address. -/
theorem witness_misaligned_store :
    let s := setting [(4, 0x1000)]
    (Instr.stw 3 4 1).wellFormed = true ∧ s.platform.cacheInhibited = [] ∧ PcHasRoom s ∧
      Admitted s (storageAddress (.stw 3 4 1) s) ∧ ClearOfCode s (storageAddress (.stw 3 4 1) s) ∧
      (storageAddress (.stw 3 4 1) s).toNat % 4 = 1 := by decide

/-- A next state of each instruction: the frames, StoreComesBeforeUpdate (`RS = RA`), RegisterZeroIsOrdinary
(`RS = 0` and `RB = 0`, X5 among them), StoreCancelsOverlappingReservations, NoInstructionTransfersControl. -/
theorem witness_next_states :
    (∃ t, exec (.stw 0 4 8) (setting [(4, 0x1000)]) = .next t) ∧
    (∃ t, exec (.stwu 4 4 8) (setting [(4, 0x1000)]) = .next t) ∧
    (∃ t, exec (.stwux 4 4 4) (setting [(4, 0x1000)]) = .next t) ∧
    (∃ t, exec (.stwux 3 4 0) (setting [(4, 0x1000)]) = .next t) ∧
    (∃ t, exec (.stwx 0 0 0) (setting [(0, 0x40)]) = .next t) ∧
    (∃ t, exec (.stwx 3 4 0) (setting [(0, 0x40), (4, 0x1000)]) = .next t) :=
  ⟨⟨_, rfl⟩, ⟨_, rfl⟩, ⟨_, rfl⟩, ⟨_, rfl⟩, ⟨_, rfl⟩, ⟨_, rfl⟩⟩

/-- A reservation at the address stored to is cancelled, whatever the size of its unit. -/
theorem witness_reservation_cancelled :
    ∃ t, exec (.stw 3 4 8) { setting [(4, 0x1000)] with resv := [0x1008] } = .next t ∧ t.resv = [] :=
  ⟨_, rfl, List.filter_eq_nil_iff.mpr fun r hr => by
    have e : r = 0x1008#32 := by simpa using hr
    rw [e]
    simp only [Bool.not_eq_true', Bool.not_eq_false, List.any_eq_true]
    exact ⟨0, by decide, beq_self_eq_true (reservationUnit 0x1008#32)⟩⟩

/-- IdenticalStoresLeaveTheSameMemory: the same store twice. -/
theorem witness_identical_stores :
    ∃ t u, updatedReg (.stw 3 4 8) = none ∧ exec (.stw 3 4 8) (setting [(4, 0x1000)]) = .next t ∧
      exec (.stw 3 4 8) t = .next u :=
  ⟨_, _, rfl, rfl, rfl⟩

/-- The address that `stwx r3, 0, r5` stores to in a state. -/
def indexAddress (s : State) : Addr := storageAddress (.stwx 3 0 5) s

/-- StoreRefusalsComeInOrder: each clause, where the ones before it do not apply, for `stwx r3, 0, r5`. -/
theorem witness_refusals_in_order :
    (Instr.stwx 3 0 5).wellFormed = true ∧
    ¬ PcHasRoom { setting [] with pc := 0xFFFFFFFC#32 } ∧
    (PcHasRoom (setting [(5, 0xFFFFFFFD)]) ∧
      ¬ Admitted (setting [(5, 0xFFFFFFFD)]) (indexAddress (setting [(5, 0xFFFFFFFD)]))) ∧
    (PcHasRoom (setting [(5, 0xFFFFD)]) ∧
      Admitted (setting [(5, 0xFFFFD)]) (indexAddress (setting [(5, 0xFFFFD)])) ∧
      ¬ ClearOfCode (setting [(5, 0xFFFFD)]) (indexAddress (setting [(5, 0xFFFFD)]))) ∧
    (PcHasRoom (inhibitedSetting [(5, 0x7FFD)]) ∧
      Admitted (inhibitedSetting [(5, 0x7FFD)]) (indexAddress (inhibitedSetting [(5, 0x7FFD)])) ∧
      ClearOfCode (inhibitedSetting [(5, 0x7FFD)]) (indexAddress (inhibitedSetting [(5, 0x7FFD)])) ∧
      ¬ AlignedWhereInhibited (inhibitedSetting [(5, 0x7FFD)])
        (indexAddress (inhibitedSetting [(5, 0x7FFD)]))) := by decide

/-- A launch state: one word of code, with `stw r0, 0(0)` in it. -/
def launched : State := State.reset.withFetchWord 32 0x90000000

/-- StepRunsTheDecodedInstruction. -/
theorem witness_step_decodes :
    launched.pc ≠ launched.platform.endPc ∧ launched.pc.toNat % 4 = 0 ∧
    inRegions launched.platform.code launched.pc.toNat ∧
    launched.mem.readByte launched.pc = some 0x90 ∧ launched.mem.readByte (launched.pc + 1) = some 0 ∧
    launched.mem.readByte (launched.pc + 2) = some 0 ∧ launched.mem.readByte (launched.pc + 3) = some 0 ∧
    decode [0x90, 0, 0, 0] = .ok (.stw 0 0 0, []) := by decide

/-- StepStopsBeforeAnInstruction: the clauses without a fetch, at the edges of the code region. -/
theorem witness_step_stops :
    (setting []).platform.endPc = 0x00100004#32 ∧
    (0x00100003#32 ≠ (setting []).platform.endPc ∧ (0x00100003#32).toNat % 4 ≠ 0) ∧
    (0x000FFFFC#32 ≠ (setting []).platform.endPc ∧ (0x000FFFFC#32).toNat % 4 = 0 ∧
      ¬ inRegions (setting []).platform.code (0x000FFFFC#32).toNat) := by decide

/-- StepStopsBeforeAnInstruction: a fetch of a byte without a value. -/
theorem witness_step_unwritten :
    (setting []).pc ≠ (setting []).platform.endPc ∧ (setting []).pc.toNat % 4 = 0 ∧
      inRegions (setting []).platform.code (setting []).pc.toNat ∧
      (setting []).mem.readByte ((setting []).pc + BitVec.ofNat 32 3) = none := by decide

/-- A loaded word that is none of the four (Y7). -/
def outOfScope : State := State.reset.withFetchWord 32 0x7C64296F

/-- StepStopsBeforeAnInstruction: a word out of scope. -/
theorem witness_step_not_in_scope :
    outOfScope.pc ≠ outOfScope.platform.endPc ∧ outOfScope.pc.toNat % 4 = 0 ∧
      inRegions outOfScope.platform.code outOfScope.pc.toNat ∧
      outOfScope.mem.read outOfScope.pc 4 = some 0x7C64296F#32 ∧
      decodeWord 0x7C64296F#32 = .error (.notInScope 0x7C64296F#32) := by decide

/-- StepKeepsLawful, RunAdvancesStraight, RunNeverChangesProgramText: a lawful state with a next step, and a
byte of its code. -/
theorem witness_lawful_step :
    launched.Lawful ∧ inRegions launched.platform.code (0x00100003#32).toNat ∧
      reaches (step launched) (fun _ => true) = true ∧ reaches (run 1 launched) (fun _ => true) = true := by
  decide

/-- DefaultEndPcIsJustPastTheProgram, LoadKeepsLawful, LoadedWordRunsNext: code in whole words with a default
`END_PC`, and a lawful state with that `END_PC` in the way of the load and room for another. -/
theorem witness_load :
    let s := { setting [] with pc := 0x00100004 }
    CodeInWords s.platform ∧ defaultEndPc s.platform.code = some s.pc ∧ s.platform.endPc = s.pc ∧ s.Lawful ∧
      (0x00100008#32).toNat % 4 = 0 ∧ ¬ inRegions (s.withFetchWord 32 0x90000000).platform.code 0x00100008 ∧
      decodeWord (tableWord 32 0x90000000) = .ok (.stw 0 0 0) := by decide

/-- RunEndsOneWay: one step from the launch state ends well. -/
theorem witness_ends_well : ∃ t, EndsWell 1 launched t := ⟨_, rfl, by decide⟩

/-- StepKeepsLaunchCode, LaunchedRunStopsOnlyAtItsEndOrRefused: a launch state of a program of one word, with a
reservation held. -/
theorem witness_launched :
    Launched (fun _ => 0x90000000#32) [0x2000] { launched with resv := [0x2000] } := by
  refine ⟨by decide, by decide, ⟨by decide, fun a h4 h => ?_⟩, .inr rfl, fun r h => by cases h⟩
  obtain ⟨r, hr, h1, h2⟩ := h
  have e : r = { base := 0x00100000, size := 4 } := by
    simpa [launched, State.withFetchWord, State.reset] using hr
  subst e
  have h1' : 0x00100000 ≤ a.toNat := h1
  have h2' : a.toNat < 0x00100004 := h2
  have ha : a = 0x00100000#32 := BitVec.eq_of_toNat_eq (by simp; omega)
  subst ha
  decide

/-- RegistersReadAndWrittenAreTheTables: two states that differ in a register `stwu r3, 8(r4)` does not read and
in the high half of the one it stores. -/
theorem witness_tables_states :
    let s := setting [(3, 0x99), (4, 0x1000), (7, 1)]
    let s' := setting [(3, 0xFFFFFFFF00000099), (4, 0x1000)]
    s.pc = s'.pc ∧ s.mem = s'.mem ∧ s.resv = s'.resv ∧ s.platform = s'.platform ∧
      lowWord s (sourceReg (.stwu 3 4 8)) = lowWord s' (sourceReg (.stwu 3 4 8)) ∧
      (∀ r ∈ addressRegs (.stwu 3 4 8), s.readReg r = s'.readReg r) ∧ s ≠ s' := by decide

/-- HighHalvesNeverReachMemory: two different states with the same low halves. -/
theorem witness_same_low_halves :
    setting [(4, 0x1000)] ≠ setting [(4, 0xFFFFFFFF00001000)] ∧
      SameLowHalves (setting [(4, 0x1000)]) (setting [(4, 0xFFFFFFFF00001000)]) := by
  refine ⟨by decide, rfl, rfl, rfl, rfl, by decide⟩

/-- MemWriteIsBigEndian, MemReadIsTheInverse, MixedWidthView: a write that ends at the top of the space. -/
theorem witness_write_at_top :
    (0xFFFFFFFC#32).toNat + 4 ≤ 2 ^ 32 ∧ (0xFFFFFFFA#32).toNat + 6 ≤ 2 ^ 32 ∧
      (0xFFFFFFFB#32).toNat < (0xFFFFFFFC#32).toNat := by decide

/-- CanonicalMemoryIsDeterminedByReads: memories in canonical form that read alike, and two that are not in
it. -/
theorem witness_canonical_memory :
    (∃ m m' : Memory, m = [(0, 1), (0xFFFFFFFF, 2)] ∧ m.wf = true ∧ m'.wf = true ∧
      ∀ a, m.readByte a = m'.readByte a) ∧
    Memory.wf [(1, 1), (0, 2)] = false ∧ Memory.wf [(0x100000000, 2)] = false :=
  ⟨⟨_, [(0, 1), (0xFFFFFFFF, 2)], rfl, by decide, by decide, fun _ => rfl⟩, by decide, by decide⟩

/-- Decoding: a word of each instruction, and one of none. -/
theorem witness_decoded_words :
    decodeWord 0x94000000#32 = .ok (.stwu 0 0 0) ∧ decodeWord 0x7FFFF92E#32 = .ok (.stwx 31 31 31) ∧
      decodeWord 0x7C00052E#32 = .error (.notInScope 0x7C00052E#32) := by decide

/-- BaseZeroIsLiteralZero, UpdateFormsRefuseBaseZero: both values of the field's test. -/
theorem witness_base_fields : (0 : RegNum) = 0#5 ∧ (31 : RegNum) ≠ 0#5 := by decide

end Sys2Proof.Tests
end

/-! SUPPORT. A read of the bytes of a write, for every byte count, and the statements of 20_memory.md that need
it. -/

namespace Sys2Proof.Machine

/-! ### Bytes at rising addresses -/

theorem add_ofNat_succ (a : Addr) (k : Nat) :
    a + BitVec.ofNat 32 (k + 1) = a + 1#32 + BitVec.ofNat 32 k := by
  rw [Nat.add_comm, BitVec.ofNat_add, BitVec.add_assoc]

/-- No premise on the last address: up to `2 ^ 32` bytes, the addresses written are all different. -/
theorem readByte_writeBytes_inside (bs : List Byte) (m : Memory) (a : Addr) (hn : bs.length ≤ 2 ^ 32)
    (k : Nat) (hk : k < bs.length) :
    (m.writeBytes a bs).readByte (a + BitVec.ofNat 32 k) = some bs[k] := by
  induction bs generalizing m a k with
  | nil => cases hk
  | cons b rest ih =>
    rw [List.length_cons] at hn hk
    cases k with
    | zero =>
      have apart : ∀ j < rest.length, a + 0#32 ≠ a + 1#32 + BitVec.ofNat 32 j := by
        intro j hj e
        rw [← add_ofNat_succ, BitVec.add_right_inj] at e
        have := congrArg BitVec.toNat e
        simp only [BitVec.toNat_ofNat] at this
        omega
      rw [Memory.writeBytes, readByte_writeBytes_outside rest _ _ _ apart]
      simpa using readByte_writeByte_same m a b
    | succ k =>
      rw [add_ofNat_succ]
      exact ih (m.writeByte a b) (a + 1#32) (by omega) k (by omega)

theorem length_of_readBytes {m : Memory} {a : Addr} {n : Nat} {bs : List Byte}
    (h : m.readBytes a n = some bs) : bs.length = n := by
  induction n generalizing a bs with
  | zero => cases h; rfl
  | succ n ih =>
    simp only [Memory.readBytes] at h
    split at h
    · next b rest hb hrest => cases h; simp [ih hrest]
    · cases h

/-- A read of bytes gives a list exactly where each of its bytes stands at its address. -/
theorem readBytes_eq_some_iff (m : Memory) (a : Addr) (bs : List Byte) :
    m.readBytes a bs.length = some bs ↔
      ∀ (k : Nat) (hk : k < bs.length), m.readByte (a + BitVec.ofNat 32 k) = some bs[k] := by
  induction bs generalizing a with
  | nil => simp [Memory.readBytes]
  | cons b rest ih =>
    have hcons : m.readBytes a (b :: rest).length = some (b :: rest) ↔
        m.readByte a = some b ∧ m.readBytes (a + 1#32) rest.length = some rest := by
      simp only [List.length_cons, Memory.readBytes]
      cases m.readByte a <;> cases m.readBytes (a + 1#32) rest.length <;> simp
    rw [hcons, ih]
    constructor
    · rintro ⟨h0, h⟩ k hk
      cases k with
      | zero => simpa using h0
      | succ k => rw [add_ofNat_succ]; exact h k (Nat.lt_of_succ_lt_succ hk)
    · intro h
      refine ⟨?_, fun k hk => ?_⟩
      · have h0 := h 0 (Nat.zero_lt_succ _)
        rwa [BitVec.add_zero] at h0
      · rw [← add_ofNat_succ]
        exact h (k + 1) (Nat.succ_lt_succ hk)

/-! ### The bytes of a value -/

theorem getElem_bytesBE (n : Nat) (v : BitVec (8 * n)) (k : Nat) (hk : k < (bytesBE n v).length) :
    (bytesBE n v)[k] = v.extractLsb' (8 * (n - k - 1)) 8 := by
  simp [bytesBE]

/-- The last byte is the low one, and the bytes before it are those of the value without it. -/
theorem bytesBE_succ (n : Nat) (v : BitVec (8 * (n + 1))) :
    bytesBE (n + 1) v = bytesBE n (v.extractLsb' 8 (8 * n)) ++ [v.extractLsb' 0 8] := by
  rw [bytesBE, bytesBE, List.range_succ, List.map_append]
  congr 1
  · apply List.map_congr_left
    intro k hk
    have hk : k < n := List.mem_range.mp hk
    apply BitVec.eq_of_getLsbD_eq
    intro i hi
    have e : 8 + (8 * (n - k - 1) + i) = 8 * (n + 1 - k - 1) + i := by omega
    have hlt : 8 * (n - k - 1) + i < 8 * n := by omega
    simp [e, hi, hlt]
  · simp

theorem natOfBytesBE_concat (bs : List Byte) (b : Byte) :
    natOfBytesBE (bs ++ [b]) = 256 * natOfBytesBE bs + b.toNat := by
  simp [natOfBytesBE]

theorem natOfBytesBE_bytesBE (n : Nat) (v : BitVec (8 * n)) : natOfBytesBE (bytesBE n v) = v.toNat := by
  induction n with
  | zero => simp [bytesBE, natOfBytesBE, BitVec.eq_nil v]
  | succ n ih =>
    have hv : v.toNat / 256 < 2 ^ (8 * n) := by
      have : v.toNat < 2 ^ (8 * n) * 256 := (v.isLt).trans_eq (Nat.pow_add 2 (8 * n) 8)
      omega
    have hhigh : (v.extractLsb' 8 (8 * n)).toNat = v.toNat / 256 := by
      rw [BitVec.extractLsb'_toNat, Nat.shiftRight_eq_div_pow, Nat.mod_eq_of_lt hv]
    have hlow : (v.extractLsb' 0 8).toNat = v.toNat % 256 := by simp
    rw [bytesBE_succ, natOfBytesBE_concat, ih, hhigh, hlow, Nat.div_add_mod]

/-- The number of big-endian bytes as Mathlib's number of base-256 digits, which come the low one first. -/
theorem natOfBytesBE_eq_ofDigits (bs : List Byte) :
    natOfBytesBE bs = Nat.ofDigits 256 (bs.map BitVec.toNat).reverse := by
  rw [natOfBytesBE, Nat.ofDigits_eq_foldr, List.foldr_reverse, List.foldl_map]
  simp only [Nat.cast_id, Nat.add_comm]

theorem byte_digit_lt (bs : List Byte) : ∀ d ∈ (bs.map BitVec.toNat).reverse, d < 256 := by
  intro d hd
  obtain ⟨b, -, rfl⟩ := List.mem_map.mp (List.mem_reverse.mp hd)
  exact b.isLt

theorem natOfBytesBE_lt (bs : List Byte) : natOfBytesBE bs < 2 ^ (8 * bs.length) := by
  have := Nat.ofDigits_lt_base_pow_length (by decide) (byte_digit_lt bs)
  rw [List.length_reverse, List.length_map] at this
  rwa [natOfBytesBE_eq_ofDigits, Nat.pow_mul]

theorem natOfBytesBE_inj {bs cs : List Byte} (hlen : bs.length = cs.length)
    (h : natOfBytesBE bs = natOfBytesBE cs) : bs = cs := by
  rw [natOfBytesBE_eq_ofDigits, natOfBytesBE_eq_ofDigits] at h
  have := Nat.ofDigits_inj_of_len_eq (by decide) (by simpa using hlen) (byte_digit_lt bs)
    (byte_digit_lt cs) h
  exact List.map_injective_iff.mpr (fun _ _ => BitVec.eq_of_toNat_eq) (List.reverse_injective this)

/-! ### `MemRead` -/

/-- `MemRead` gives a value exactly where the bytes read are the bytes `MemWrite` writes of it. -/
theorem read_eq_some_iff_readBytes (m : Memory) (a : Addr) (n : Nat) (v : BitVec (8 * n)) :
    m.read a n = some v ↔ m.readBytes a n = some (bytesBE n v) := by
  rw [Memory.read, Option.map_eq_some_iff]
  constructor
  · rintro ⟨bs, hread, rfl⟩
    have hlen := length_of_readBytes hread
    rw [hread, Option.some_inj]
    apply natOfBytesBE_inj (by simpa using hlen)
    rw [natOfBytesBE_bytesBE, BitVec.toNat_ofNat, Nat.mod_eq_of_lt (hlen ▸ natOfBytesBE_lt bs)]
  · intro hread
    exact ⟨_, hread, by rw [natOfBytesBE_bytesBE, BitVec.ofNat_toNat, BitVec.setWidth_eq]⟩

/-- R42, byte by byte. -/
theorem read_eq_some_iff (m : Memory) (a : Addr) (n : Nat) (v : BitVec (8 * n)) :
    m.read a n = some v ↔
      ∀ k < n, m.readByte (a + BitVec.ofNat 32 k) = some (v.extractLsb' (8 * (n - k - 1)) 8) := by
  have := readBytes_eq_some_iff m a (bytesBE n v)
  simp only [length_bytesBE, getElem_bytesBE] at this
  rw [read_eq_some_iff_readBytes, this]

/-! ### `MemWrite` -/

/-- R41, the bytes written. -/
theorem readByte_write_inside (m : Memory) (a : Addr) (n : Nat) (v : BitVec (8 * n)) (hn : n ≤ 2 ^ 32)
    (k : Nat) (hk : k < n) :
    (m.write a n v).readByte (a + BitVec.ofNat 32 k) = some (v.extractLsb' (8 * (n - k - 1)) 8) := by
  have hk' : k < (bytesBE n v).length := by rwa [length_bytesBE]
  rw [← getElem_bytesBE n v k hk']
  exact readByte_writeBytes_inside _ m a (by rwa [length_bytesBE]) k hk'

/-! ### The obligations of 20_memory.md -/

/-- Settles O13: the bytes inside by induction on the bytes written, the others by the frame of `MemWrite`, since
no address of the access wraps. -/
theorem memWriteIsBigEndian : Obligations.MemWriteIsBigEndian := by
  intro m a n v hn
  refine ⟨fun k hk => readByte_write_inside m a n v (by omega) k hk, fun b hb => ?_⟩
  apply readByte_write_outside
  rintro k hk rfl
  rw [toNat_add_of_fits a k n hk hn] at hb
  omega

/-- Settles O14: a read is characterised byte by byte, and the bytes of a write are those of its value. -/
theorem memReadIsTheInverse : Obligations.MemReadIsTheInverse :=
  ⟨read_eq_some_iff, fun m a n v hn =>
    (read_eq_some_iff _ a n v).mpr fun k hk => readByte_write_inside m a n v (by omega) k hk⟩

/-- Settles O18: without cache-inhibited storage no check of R100 line 6 looks at the alignment, so the valid form
is done and leaves the memory of `commitStore_done`. -/
theorem wordStoreNeedsNoAlignment : Obligations.WordStoreNeedsNoAlignment := by
  intro i s hwf hnone hroom hadm hclear
  have haligned : AlignedWhereInhibited s (storageAddress i s) := .inr (by simp [hnone])
  have hmay : MayStore s (storageAddress i s) := ⟨hroom, hadm, hclear, haligned⟩
  obtain ⟨-, -, hexec⟩ | ⟨hinvalid | hnot, -⟩ := exec_cases i s
  · exact ⟨_, hexec, (commitStore_done s _ _ _ hmay).1⟩
  · rw [hwf] at hinvalid
    cases hinvalid
  · exact absurd hmay hnot

end Sys2Proof.Machine

/-! SUPPORT. A word of each form is its fields, and decoding inverts encoding; with them the statements of
30_encoding.md about the four instructions' words and about the displacement. -/

namespace Sys2Proof

/-! ### A word is its fields (R71, R72) -/

/-- Every word is of form D. -/
theorem formD_fields (w : Word) :
    formD (w.extractLsb' 26 6) (fieldRS w) (fieldRA w) (fieldD w) = w := by
  apply BitVec.eq_of_toNat_eq
  have := w.isLt
  rw [toNat_formD]
  simp only [fieldRS, fieldRA, fieldD, BitVec.extractLsb'_toNat, Nat.shiftRight_eq_div_pow]
  omega

/-- Every word is of form X. -/
theorem formX_fields (w : Word) :
    formX (w.extractLsb' 26 6) (fieldRS w) (fieldRA w) (fieldRB w) (w.extractLsb' 1 10) (w.extractLsb' 0 1) =
      w := by
  apply BitVec.eq_of_toNat_eq
  have := w.isLt
  rw [toNat_formX]
  simp only [fieldRS, fieldRA, fieldRB, BitVec.extractLsb'_toNat, Nat.shiftRight_eq_div_pow]
  omega

theorem formD_inj {op op' : BitVec 6} {rs rs' ra ra' : RegNum} {d d' : Disp} :
    formD op rs ra d = formD op' rs' ra' d' ↔ op = op' ∧ rs = rs' ∧ ra = ra' ∧ d = d' := by
  refine ⟨fun h => ?_, fun ⟨hop, hrs, hra, hd⟩ => by rw [hop, hrs, hra, hd]⟩
  have hnat := congrArg BitVec.toNat h
  rw [toNat_formD, toNat_formD] at hnat
  simp only [← BitVec.toNat_inj]
  omega

theorem formX_inj {op op' : BitVec 6} {rs rs' ra ra' rb rb' : RegNum} {xo xo' : BitVec 10} {rc rc' : BitVec 1} :
    formX op rs ra rb xo rc = formX op' rs' ra' rb' xo' rc' ↔
      op = op' ∧ rs = rs' ∧ ra = ra' ∧ rb = rb' ∧ xo = xo' ∧ rc = rc' := by
  refine ⟨fun h => ?_, fun ⟨hop, hrs, hra, hrb, hxo, hrc⟩ => by rw [hop, hrs, hra, hrb, hxo, hrc]⟩
  have hnat := congrArg BitVec.toNat h
  rw [toNat_formX, toNat_formX] at hnat
  simp only [← BitVec.toNat_inj]
  omega

theorem formD_eq_iff (op : BitVec 6) (rs ra : RegNum) (d : Disp) (w : Word) :
    formD op rs ra d = w ↔
      w.extractLsb' 26 6 = op ∧ rs = fieldRS w ∧ ra = fieldRA w ∧ d = fieldD w := by
  conv_lhs => rw [← formD_fields w, formD_inj, eq_comm (a := op)]

theorem formX_eq_iff (op : BitVec 6) (rs ra rb : RegNum) (xo : BitVec 10) (rc : BitVec 1) (w : Word) :
    formX op rs ra rb xo rc = w ↔
      (w.extractLsb' 26 6 = op ∧ w.extractLsb' 1 10 = xo ∧ w.extractLsb' 0 1 = rc) ∧
        rs = fieldRS w ∧ ra = fieldRA w ∧ rb = fieldRB w := by
  conv_lhs => rw [← formX_fields w, formX_inj]
  rw [eq_comm (a := op), eq_comm (a := xo), eq_comm (a := rc)]
  tauto

/-! ### Mask and match (R75) -/

theorem and_formD (op op' : BitVec 6) (rs rs' ra ra' : RegNum) (d d' : Disp) :
    formD op rs ra d &&& formD op' rs' ra' d' = formD (op &&& op') (rs &&& rs') (ra &&& ra') (d &&& d') := by
  ext k hk
  grind [formD]

theorem and_formX (op op' : BitVec 6) (rs rs' ra ra' rb rb' : RegNum) (xo xo' : BitVec 10) (rc rc' : BitVec 1) :
    formX op rs ra rb xo rc &&& formX op' rs' ra' rb' xo' rc' =
      formX (op &&& op') (rs &&& rs') (ra &&& ra') (rb &&& rb') (xo &&& xo') (rc &&& rc') := by
  ext k hk
  grind [formX]

/-- The mask of form D keeps the primary opcode. -/
theorem and_maskD_eq_iff (w : Word) (op : BitVec 6) :
    w &&& 0xFC000000#32 = formD op 0 0 0 ↔ w.extractLsb' 26 6 = op := by
  have hmask : 0xFC000000#32 = formD (BitVec.allOnes 6) 0 0 0 := rfl
  conv_lhs => rw [← formD_fields w, hmask, and_formD, formD_inj, BitVec.and_allOnes]
  simp

/-- The mask of form X keeps the primary opcode, the extended opcode and `Rc`. -/
theorem and_maskX_eq_iff (w : Word) (op : BitVec 6) (xo : BitVec 10) (rc : BitVec 1) :
    w &&& 0xFC0007FF#32 = formX op 0 0 0 xo rc ↔
      w.extractLsb' 26 6 = op ∧ w.extractLsb' 1 10 = xo ∧ w.extractLsb' 0 1 = rc := by
  have hmask : 0xFC0007FF#32 = formX (BitVec.allOnes 6) 0 0 0 (BitVec.allOnes 10) (BitVec.allOnes 1) := rfl
  conv_lhs =>
    rw [← formX_fields w, hmask, and_formX, formX_inj, BitVec.and_allOnes, BitVec.and_allOnes, BitVec.and_allOnes]
  simp

theorem stw_match_iff (w : Word) : w &&& 0xFC000000#32 = 0x90000000#32 ↔ w.extractLsb' 26 6 = 36 :=
  and_maskD_eq_iff w 36

theorem stwu_match_iff (w : Word) : w &&& 0xFC000000#32 = 0x94000000#32 ↔ w.extractLsb' 26 6 = 37 :=
  and_maskD_eq_iff w 37

theorem stwux_match_iff (w : Word) :
    w &&& 0xFC0007FF#32 = 0x7C00016E#32 ↔
      w.extractLsb' 26 6 = 31 ∧ w.extractLsb' 1 10 = 183 ∧ w.extractLsb' 0 1 = 0 :=
  and_maskX_eq_iff w 31 183 0

theorem stwx_match_iff (w : Word) :
    w &&& 0xFC0007FF#32 = 0x7C00012E#32 ↔
      w.extractLsb' 26 6 = 31 ∧ w.extractLsb' 1 10 = 151 ∧ w.extractLsb' 0 1 = 0 :=
  and_maskX_eq_iff w 31 151 0

/-- The opcode map of R75 by fields, as R76 to R82 state it. -/
theorem decodeWord_eq (w : Word) :
    decodeWord w =
      if w.extractLsb' 26 6 = 36 then .ok (.stw (fieldRS w) (fieldRA w) (fieldD w))
      else if w.extractLsb' 26 6 = 37 then .ok (.stwu (fieldRS w) (fieldRA w) (fieldD w))
      else if w.extractLsb' 26 6 = 31 ∧ w.extractLsb' 1 10 = 183 ∧ w.extractLsb' 0 1 = 0 then
        .ok (.stwux (fieldRS w) (fieldRA w) (fieldRB w))
      else if w.extractLsb' 26 6 = 31 ∧ w.extractLsb' 1 10 = 151 ∧ w.extractLsb' 0 1 = 0 then
        .ok (.stwx (fieldRS w) (fieldRA w) (fieldRB w))
      else .error (.notInScope w) := by
  simp only [decodeWord, stw_match_iff, stwu_match_iff, stwux_match_iff, stwx_match_iff]

theorem encodeWord_of_decodeWord {w : Word} {i : Instr} (h : decodeWord w = .ok i) : encodeWord i = w := by
  rw [decodeWord_eq] at h
  split_ifs at h with hstw hstwu hstwux hstwx <;> cases h
  · exact (formD_eq_iff ..).mpr ⟨hstw, rfl, rfl, rfl⟩
  · exact (formD_eq_iff ..).mpr ⟨hstwu, rfl, rfl, rfl⟩
  · exact (formX_eq_iff ..).mpr ⟨hstwux, rfl, rfl, rfl⟩
  · exact (formX_eq_iff ..).mpr ⟨hstwx, rfl, rfl, rfl⟩

theorem decodeWord_encodeWord (i : Instr) : decodeWord (encodeWord i) = .ok i := by
  generalize h : encodeWord i = w
  rw [decodeWord_eq]
  cases i with
  | stw rs ra d =>
    obtain ⟨hop, rfl, rfl, rfl⟩ := (formD_eq_iff ..).mp h
    simp [hop]
  | stwu rs ra d =>
    obtain ⟨hop, rfl, rfl, rfl⟩ := (formD_eq_iff ..).mp h
    simp [hop]
  | stwux rs ra rb =>
    obtain ⟨⟨hop, hxo, hrc⟩, rfl, rfl, rfl⟩ := (formX_eq_iff ..).mp h
    simp [hop, hxo, hrc]
  | stwx rs ra rb =>
    obtain ⟨⟨hop, hxo, hrc⟩, rfl, rfl, rfl⟩ := (formX_eq_iff ..).mp h
    simp [hop, hxo, hrc]

/-- A word decodes to the one instruction that encodes to it, where there is one. -/
theorem decodeWord_eq_ok_iff (w : Word) (i : Instr) : decodeWord w = .ok i ↔ encodeWord i = w :=
  ⟨encodeWord_of_decodeWord, fun h => h ▸ decodeWord_encodeWord i⟩

/-! ### The formulas of R85 -/

theorem formD_eq_or (op : BitVec 6) (rs ra : RegNum) (d : Disp) :
    formD op rs ra d =
      formD op 0 0 0 ||| rs.setWidth 32 <<< 21 ||| ra.setWidth 32 <<< 16 ||| d.setWidth 32 := by
  ext k hk
  grind [formD]

theorem formX_eq_or (op : BitVec 6) (rs ra rb : RegNum) (xo : BitVec 10) (rc : BitVec 1) :
    formX op rs ra rb xo rc =
      formX op 0 0 0 xo rc ||| rs.setWidth 32 <<< 21 ||| ra.setWidth 32 <<< 16 ||| rb.setWidth 32 <<< 11 := by
  ext k hk
  grind [formX]

/-! ### The statements on encoding -/

/-- Settles O1: the mask keeps the primary opcode, and the words that decode to a `stw` are those it encodes to,
the words of form D with opcode 36. -/
theorem stwIsPrimaryOpcode36 : Obligations.StwIsPrimaryOpcode36 := fun w =>
  ⟨stw_match_iff w, fun _ _ _ => ⟨rfl, (decodeWord_eq_ok_iff ..).trans (formD_eq_iff ..)⟩⟩

/-- Settles O2: as for `stw`, with opcode 37, and the valid form is the model's own test of `RA`. -/
theorem stwuIsPrimaryOpcode37 : Obligations.StwuIsPrimaryOpcode37 := fun w =>
  ⟨stwu_match_iff w, fun _ _ _ => ⟨bne_iff_ne, (decodeWord_eq_ok_iff ..).trans (formD_eq_iff ..)⟩⟩

/-- Settles O3: the mask keeps `OPCD`, `XO` and `Rc`, and the words that decode to a `stwux` are those of form X
with its three constants. -/
theorem stwuxIsExtendedOpcode183 : Obligations.StwuxIsExtendedOpcode183 := fun w =>
  ⟨stwux_match_iff w, fun _ _ _ => ⟨bne_iff_ne, (decodeWord_eq_ok_iff ..).trans (formX_eq_iff ..)⟩⟩

/-- Settles O4: as for `stwux`, with `XO` 151, and every form is valid. -/
theorem stwxIsExtendedOpcode151 : Obligations.StwxIsExtendedOpcode151 := fun w =>
  ⟨stwx_match_iff w, fun _ _ _ => ⟨rfl, (decodeWord_eq_ok_iff ..).trans (formX_eq_iff ..)⟩⟩

/-- Settles O6: each formula is the bits of its form, its constant the form's word with every operand 0. -/
theorem assembledWordIsTheFormula : Obligations.AssembledWordIsTheFormula :=
  ⟨fun rs ra d => ⟨formD_eq_or 36 rs ra d, formD_eq_or 37 rs ra d⟩,
    fun rs ra rb => ⟨formX_eq_or 31 rs ra rb 183 0, formX_eq_or 31 rs ra rb 151 0⟩,
    fun _ _ => encodeWord_of_decodeWord, by decide, by decide⟩

end Sys2Proof

namespace Sys2Proof.Machine

/-! ### The displacement (R73) -/

@[simp] theorem toInt_displacement (d : Disp) : (displacement d).toInt = d.toInt :=
  BitVec.toInt_signExtend_of_le (by decide)

theorem getLsbD_displacement_low (d : Disp) {k : Nat} (hk : k < 16) :
    (displacement d).getLsbD k = d.getLsbD k := by
  have hk64 : k < 64 := by omega
  rw [displacement, BitVec.getLsbD_signExtend]
  simp [hk, hk64]

/-- Bit 15 of the field fills bits 16 to 63. -/
theorem getLsbD_displacement_high (d : Disp) {k : Nat} (hlow : 16 ≤ k) (hhigh : k < 64) :
    (displacement d).getLsbD k = d.getLsbD 15 := by
  rw [displacement, BitVec.getLsbD_signExtend]
  simp [hhigh, hlow.not_gt, BitVec.msb_eq_getLsbD_last]

theorem extractLsb'_displacement (d : Disp) : (displacement d).extractLsb' 0 16 = d := by
  ext k hk
  rw [BitVec.getElem_extractLsb', Nat.zero_add, getLsbD_displacement_low d hk, BitVec.getLsbD_eq_getElem]

/-- Settles O12: sign extension keeps the signed number, so the range is that of the 16-bit field. -/
theorem displacementIsSignExtended : Obligations.DisplacementIsSignExtended := by
  refine ⟨fun d => ?_, by decide, by decide, by decide, by decide⟩
  have hmin : -2 ^ 15 ≤ d.toInt := d.le_toInt
  have hmax : d.toInt < 2 ^ 15 := d.toInt_lt
  rw [toInt_displacement]
  exact ⟨rfl, by omega, by omega, extractLsb'_displacement d, fun _ => getLsbD_displacement_high d⟩

end Sys2Proof.Machine

/-! SUPPORT. The statement of 40_store_word.md on control flow. -/

namespace Sys2Proof.Machine

theorem pc_of_exec_next {i : Instr} {s t : State} (h : exec i s = .next t) : t.pc = s.pc + 4#32 := by
  obtain ⟨-, -, rfl⟩ := exec_next h
  exact commitStore_pc ..

/-- Settles O31: the only next state of an instruction is the one its store commits, and the commit moves `pc`
on by 4 whether or not it also updates `RA`. -/
theorem noInstructionTransfersControl : Obligations.NoInstructionTransfersControl :=
  fun _ _ _ => pc_of_exec_next

end Sys2Proof.Machine

/-! SUPPORT. Decoding from bytes, the words that are out of scope, and lines of assembly; with them the other
statements of 30_encoding.md. -/

namespace Sys2Proof

/-- The bytes of a word decode as the word does, whatever bytes follow. -/
theorem decode_bytesOfWord_append (w : Word) (rest : List Byte) :
    decode (bytesOfWord w ++ rest) = (decodeWord w).map fun i => (i, rest) := by
  simp only [bytesOfWord, List.cons_append, List.nil_append, decode, wordOfBytes_bytesOfWord]

/-- Settles O7: the bytes of the encoding make its word again, and that word decodes to the instruction. -/
theorem decodeOfEncodeIsTheInstruction : Obligations.DecodeOfEncodeIsTheInstruction := by
  intro i rest
  refine ⟨decodeWord_encodeWord i, ?_⟩
  rw [encode, decode_bytesOfWord_append, decodeWord_encodeWord]
  rfl

/-- Settles O5: of the five answers of the opcode map only the last is an error, and it is the one for words that
meet none of the four conditions on fields. -/
theorem otherWordsAreNotInScope : Obligations.OtherWordsAreNotInScope := by
  intro w
  rw [decodeWord_eq]
  split_ifs with hstw hstwu hstwux hstwx
  · simp [hstw]
  · simp [hstwu]
  · simp [hstwux]
  · simp [hstwx]
  · simp only [true_iff]
    tauto

/-- Settles O9: each word of the list is decoded. -/
theorem specVectorsDecode : Obligations.SpecVectorsDecode := by
  unfold Obligations.SpecVectorsDecode
  decide

/-! ### Lines of assembly (R83, R85) -/

theorem regOperand_eq_some_iff (n : Nat) (r : RegNum) : regOperand n = some r ↔ r.toNat = n := by
  have := r.isLt
  rw [regOperand]
  split_ifs with h
  · rw [Option.some_inj, ← BitVec.toNat_inj, BitVec.toNat_ofNat]
    omega
  · simp only [false_iff]
    omega

theorem dispOperand_eq_some_iff (n : Int) (d : Disp) : dispOperand n = some d ↔ d.toInt = n := by
  have hmin : -2 ^ 15 ≤ d.toInt := d.le_toInt
  have hmax : d.toInt < 2 ^ 15 := d.toInt_lt
  rw [dispOperand]
  split_ifs with h
  · have hn : (BitVec.ofInt 16 n).toInt = n := by
      rw [BitVec.toInt_ofInt]
      exact Int.bmod_eq_of_le (by omega) (by omega)
    rw [Option.some_inj, ← BitVec.toInt_inj, hn, eq_comm]
  · simp only [false_iff]
    omega

theorem exists_toNat_eq_iff (n : Nat) : (∃ r : RegNum, r.toNat = n) ↔ n < 32 :=
  ⟨fun ⟨r, h⟩ => h ▸ r.isLt, fun h => ⟨BitVec.ofNat 5 n, by simpa using h⟩⟩

theorem exists_ne_zero_toNat_eq_iff (n : Nat) : (∃ r : RegNum, r.toNat = n ∧ r ≠ 0#5) ↔ n < 32 ∧ n ≠ 0 := by
  rw [← exists_toNat_eq_iff, ← exists_and_right]
  refine exists_congr fun r => and_congr_right fun h => ?_
  rw [← h, Ne, ← BitVec.toNat_inj]
  rfl

theorem exists_toInt_eq_iff (n : Int) : (∃ d : Disp, d.toInt = n) ↔ -32768 ≤ n ∧ n ≤ 32767 := by
  simp only [← dispOperand_eq_some_iff, ← Option.isSome_iff_exists]
  simp [dispOperand]

theorem instr_disassemble (i : Instr) : (disassemble i).instr = some i := by
  have hreg (r : RegNum) : regOperand r.toNat = some r := (regOperand_eq_some_iff ..).mpr rfl
  have hdisp (d : Disp) : dispOperand d.toInt = some d := (dispOperand_eq_some_iff ..).mpr rfl
  cases i <;> simp [disassemble, AsmLine.instr, hreg, hdisp]

theorem disassemble_of_instr {l : AsmLine} {i : Instr} (h : l.instr = some i) : disassemble i = l := by
  cases l
  all_goals
    simp only [AsmLine.instr, Option.bind_eq_bind, Option.bind_eq_some_iff, Option.pure_def, Option.some_inj,
      regOperand_eq_some_iff, dispOperand_eq_some_iff] at h
    obtain ⟨_, rfl, _, rfl, _, rfl, rfl⟩ := h
    rfl

/-- A line assembles to the word of the valid form whose line it is. -/
theorem assemble_eq_some_iff (l : AsmLine) (w : Word) :
    assemble l = some w ↔ ∃ i, disassemble i = l ∧ i.wellFormed = true ∧ encodeWord i = w := by
  have hinstr (i : Instr) : disassemble i = l ↔ l.instr = some i :=
    ⟨fun h => h ▸ instr_disassemble i, disassemble_of_instr⟩
  simp only [hinstr, assemble]
  cases l.instr <;> simp

theorem isSome_assemble_iff (l : AsmLine) :
    (assemble l).isSome = true ↔ ∃ i, disassemble i = l ∧ i.wellFormed = true := by
  simp only [Option.isSome_iff_exists, assemble_eq_some_iff]
  exact ⟨fun ⟨_, i, hl, hwf, _⟩ => ⟨i, hl, hwf⟩, fun ⟨i, hl, hwf⟩ => ⟨_, i, hl, hwf, rfl⟩⟩

/-! Which lines of each mnemonic assemble: those whose operands are in range, and `RA` not 0 in an update form. -/

theorem isSome_assemble_stw (rs ra : Nat) (d : Int) :
    (assemble (.stw rs d ra)).isSome = true ↔ rs < 32 ∧ ra < 32 ∧ -32768 ≤ d ∧ d ≤ 32767 := by
  rw [isSome_assemble_iff, ← exists_toNat_eq_iff rs, ← exists_toNat_eq_iff ra, ← exists_toInt_eq_iff d]
  constructor
  · rintro ⟨i, hl, -⟩
    cases i <;> cases hl
    exact ⟨⟨_, rfl⟩, ⟨_, rfl⟩, ⟨_, rfl⟩⟩
  · rintro ⟨⟨r, rfl⟩, ⟨a, rfl⟩, ⟨x, rfl⟩⟩
    exact ⟨.stw r a x, rfl, rfl⟩

theorem isSome_assemble_stwu (rs ra : Nat) (d : Int) :
    (assemble (.stwu rs d ra)).isSome = true ↔ rs < 32 ∧ ra < 32 ∧ ra ≠ 0 ∧ -32768 ≤ d ∧ d ≤ 32767 := by
  rw [isSome_assemble_iff, ← and_assoc (a := ra < 32), ← exists_toNat_eq_iff rs, ← exists_ne_zero_toNat_eq_iff ra,
    ← exists_toInt_eq_iff d]
  constructor
  · rintro ⟨i, hl, hwf⟩
    cases i <;> cases hl
    exact ⟨⟨_, rfl⟩, ⟨_, rfl, bne_iff_ne.mp hwf⟩, ⟨_, rfl⟩⟩
  · rintro ⟨⟨r, rfl⟩, ⟨a, rfl, ha⟩, ⟨x, rfl⟩⟩
    exact ⟨.stwu r a x, rfl, bne_iff_ne.mpr ha⟩

theorem isSome_assemble_stwx (rs ra rb : Nat) :
    (assemble (.stwx rs ra rb)).isSome = true ↔ rs < 32 ∧ ra < 32 ∧ rb < 32 := by
  rw [isSome_assemble_iff, ← exists_toNat_eq_iff rs, ← exists_toNat_eq_iff ra, ← exists_toNat_eq_iff rb]
  constructor
  · rintro ⟨i, hl, -⟩
    cases i <;> cases hl
    exact ⟨⟨_, rfl⟩, ⟨_, rfl⟩, ⟨_, rfl⟩⟩
  · rintro ⟨⟨r, rfl⟩, ⟨a, rfl⟩, ⟨b, rfl⟩⟩
    exact ⟨.stwx r a b, rfl, rfl⟩

theorem isSome_assemble_stwux (rs ra rb : Nat) :
    (assemble (.stwux rs ra rb)).isSome = true ↔ rs < 32 ∧ ra < 32 ∧ ra ≠ 0 ∧ rb < 32 := by
  rw [isSome_assemble_iff, ← and_assoc (a := ra < 32), ← exists_toNat_eq_iff rs, ← exists_ne_zero_toNat_eq_iff ra,
    ← exists_toNat_eq_iff rb]
  constructor
  · rintro ⟨i, hl, hwf⟩
    cases i <;> cases hl
    exact ⟨⟨_, rfl⟩, ⟨_, rfl, bne_iff_ne.mp hwf⟩, ⟨_, rfl⟩⟩
  · rintro ⟨⟨r, rfl⟩, ⟨a, rfl, ha⟩, ⟨b, rfl⟩⟩
    exact ⟨.stwux r a b, rfl, bne_iff_ne.mpr ha⟩

/-- Settles O8: a line assembles to a word exactly where it is the line of a valid form of that word; what is left
of the ranges is which numbers a field can hold. -/
theorem assemblyLinesRoundTrip : Obligations.AssemblyLinesRoundTrip := by
  refine ⟨fun i hwf => (assemble_eq_some_iff ..).mpr ⟨i, rfl, hwf, rfl⟩, fun l w h => ?_,
    fun rs ra d => ⟨isSome_assemble_stw rs ra d, isSome_assemble_stwu rs ra d⟩,
    fun rs ra rb => ⟨isSome_assemble_stwx rs ra rb, isSome_assemble_stwux rs ra rb⟩⟩
  obtain ⟨i, hline, -, rfl⟩ := (assemble_eq_some_iff ..).mp h
  exact ⟨i, decodeWord_encodeWord i, hline⟩

end Sys2Proof

/-! SUPPORT. What an instruction leaves where it completes, and the first reason for which it is refused, each once
for all four instructions; with them the statements of 10_state.md, 20_memory.md, 40_store_word.md and
60_exceptions.md. -/

namespace Sys2Proof.Machine

/-! ### Where an instruction completes -/

/-- What a completed instruction has done outside the registers. -/
theorem exec_done {i : Instr} {s t : State} (h : exec i s = .next t) :
    MayStore s (storageAddress i s) ∧ StoreDone s t (storageAddress i s) (lowWord s (sourceReg i)) := by
  obtain ⟨-, hmay, rfl⟩ := exec_next h
  exact ⟨hmay, commitStore_done s _ _ _ hmay⟩

theorem storesWordAt_of_exec_next {i : Instr} {s t : State} (h : exec i s = .next t) :
    StoresWordAt s.mem t.mem (storageAddress i s) (lowWord s (sourceReg i)) := by
  obtain ⟨-, hmem, -⟩ := exec_done h
  exact hmem

/-- What a completed instruction has done to the registers. -/
theorem readReg_of_exec_next {i : Instr} {s t : State} (h : exec i s = .next t) (r : RegNum) :
    t.readReg r = if updatedReg i = some r then (storageAddress i s).setWidth 64 else s.readReg r := by
  obtain ⟨-, -, rfl⟩ := exec_next h
  exact commitStore_readReg ..

theorem readReg_of_exec_next_other {i : Instr} {s t : State} (h : exec i s = .next t) {r : RegNum}
    (hr : updatedReg i ≠ some r) : t.readReg r = s.readReg r :=
  (readReg_of_exec_next h r).trans (if_neg hr)

theorem regs_of_exec_next {i : Instr} {s t : State} (hplain : updatedReg i = none) (h : exec i s = .next t) :
    t.regs = s.regs := by
  obtain ⟨-, -, rfl⟩ := exec_next h
  rw [hplain, commitStore_regs_none]

/-- The four bytes of a store that may be done are the addresses `ea` to `ea + 3`, which do not wrap. -/
theorem readByte_of_storesWordAt_outside {m m' : Memory} {ea a : Addr} {v : Word} (hfits : ea.toNat ≤ 0xFFFFFFFC)
    (h : StoresWordAt m m' ea v) (ha : a.toNat < ea.toNat ∨ ea.toNat + 4 ≤ a.toNat) :
    m'.readByte a = m.readByte a := by
  obtain ⟨-, -, -, -, hframe⟩ := h
  have apart (k : Nat) (hk : k < 4) : a ≠ ea + BitVec.ofNat 32 k := by
    rintro rfl
    rw [toNat_add_of_fits ea k 4 hk (by omega)] at ha
    omega
  have h0 : a ≠ ea := by rintro rfl; omega
  exact hframe a h0 (apart 1 (by decide)) (apart 2 (by decide)) (apart 3 (by decide))

/-- A word stored over itself changes no byte. -/
theorem readByte_of_storesWordAt_twice {m m' m'' : Memory} {ea : Addr} {v : Word} (h : StoresWordAt m m' ea v)
    (h' : StoresWordAt m' m'' ea v) (a : Addr) : m''.readByte a = m'.readByte a := by
  obtain ⟨h0, h1, h2, h3, -⟩ := h
  obtain ⟨h0', h1', h2', h3', hframe⟩ := h'
  by_cases e0 : a = ea
  · rw [e0, h0, h0']
  by_cases e1 : a = ea + 1#32
  · rw [e1, h1, h1']
  by_cases e2 : a = ea + 2#32
  · rw [e2, h2, h2']
  by_cases e3 : a = ea + 3#32
  · rw [e3, h3, h3']
  exact hframe a e0 e1 e2 e3

theorem mem_reservationsLeft (resv : List Addr) (ea r : Addr) :
    r ∈ reservationsLeft resv ea ↔ r ∈ resv ∧ ∀ k < 4, unitOf (ea.toNat + k) ≠ unitOf r.toNat := by
  simp only [reservationsLeft, List.mem_filter, List.all_eq_true, List.mem_range, bne_iff_ne]

/-- The frame of every instruction outside the registers, with the address as the sum of any base and offset. -/
theorem frame_of_exec_next {i : Instr} {s t : State} {b o : Reg64} (hsum : b + o = storageSum i s)
    (h : exec i s = .next t) :
    t.platform = s.platform ∧ (∀ r ∈ t.resv, r ∈ s.resv) ∧
      ∀ a ea, effectiveAddress b o = ea → (a.toNat < ea.toNat ∨ ea.toNat + 4 ≤ a.toNat) →
        t.mem.readByte a = s.mem.readByte a := by
  obtain ⟨⟨-, ⟨hfits, -⟩, -⟩, hmem, hresv, -, hplatform⟩ := exec_done h
  refine ⟨hplatform, fun r hr => ?_, ?_⟩
  · rw [hresv, mem_reservationsLeft] at hr
    exact hr.1
  · rintro a ea rfl ha
    rw [effectiveAddress_eq, hsum] at ha
    exact readByte_of_storesWordAt_outside hfits hmem ha

/-! ### Where an instruction is refused -/

/-- The first reason for which an instruction is refused, in the order of R124: an invalid form, then lines 3 and 6
of R100. -/
def execRefusal (i : Instr) (s : State) : Option Refusal :=
  if !i.wellFormed then some (.invalidForm (encodeWord i))
  else if s.pc = 0xFFFFFFFC#32 then some (.pcOverflow s.pc)
  else accessRefusal s.platform (storageAddress i s)

theorem exec_of_invalid {i : Instr} (h : i.wellFormed = false) (s : State) :
    exec i s = .refused (.invalidForm (encodeWord i)) := by
  cases i with
  | stw rs ra d => cases h
  | stwu rs ra d => exact if_pos (bne_eq_false_iff_eq.mp h)
  | stwux rs ra rb => exact if_pos (bne_eq_false_iff_eq.mp h)
  | stwx rs ra rb => cases h

/-- A valid form is the shared store at the sum of R107. -/
theorem exec_of_wellFormed {i : Instr} (h : i.wellFormed = true) (s : State) :
    ∃ b o, b + o = storageSum i s ∧ exec i s = storeWord (sourceReg i) b o (updatedReg i) s := by
  cases i with
  | stw rs ra d => exact ⟨_, _, rfl, rfl⟩
  | stwu rs ra d => exact ⟨_, _, rfl, if_neg (bne_iff_ne.mp h)⟩
  | stwux rs ra rb => exact ⟨_, _, rfl, if_neg (bne_iff_ne.mp h)⟩
  | stwx rs ra rb => exact ⟨_, _, rfl, rfl⟩

/-- What an instruction answers, by the first reason for which it is refused. -/
theorem exec_eq (i : Instr) (s : State) :
    exec i s = (execRefusal i s).elim
      (.next (commitStore s (storageAddress i s) (lowWord s (sourceReg i)) (updatedReg i))) .refused := by
  cases hwf : i.wellFormed with
  | false => simp [exec_of_invalid, execRefusal, hwf]
  | true =>
    obtain ⟨b, o, hsum, he⟩ := exec_of_wellFormed hwf s
    have hea : effectiveAddress b o = storageAddress i s := by rw [effectiveAddress_eq, hsum, storageAddress]
    by_cases hpc : s.pc = 0xFFFFFFFC#32
    · simp [he, storeWord, execRefusal, hwf, hpc]
    · simp only [he, storeWord, execRefusal, hwf, hpc, hea, storedWord_eq, Bool.not_true, Bool.false_eq_true,
        if_false]
      cases accessRefusal s.platform (storageAddress i s) <;> rfl

theorem exec_of_refusal {i : Instr} {s : State} {r : Refusal} (h : execRefusal i s = some r) :
    exec i s = .refused r := by
  rw [exec_eq, h, Option.elim_some]

theorem exec_of_no_refusal {i : Instr} {s : State} (h : execRefusal i s = none) :
    exec i s = .next (commitStore s (storageAddress i s) (lowWord s (sourceReg i)) (updatedReg i)) := by
  rw [exec_eq, h, Option.elim_none]

/-- Of the registers, the refusals see the address alone. -/
theorem execRefusal_congr {i : Instr} {s s' : State} (hpc : s.pc = s'.pc) (hplatform : s.platform = s'.platform)
    (hea : storageAddress i s = storageAddress i s') : execRefusal i s = execRefusal i s' := by
  simp only [execRefusal, hpc, hplatform, hea]

/-! ### Registers and operands -/

/-- Settles O10: a register write is read back by its own register alone, and a completed instruction stores the low
word of `RS` at the sum of R107, in which no case singles out `r0` as `RS` or `RB`. -/
theorem registerZeroIsOrdinary : Obligations.RegisterZeroIsOrdinary := by
  refine ⟨fun s r r' v => ?_, fun i s t hrs h => ?_, fun rs ra s t => storesWordAt_of_exec_next,
    fun rs ra s t => storesWordAt_of_exec_next⟩
  · split_ifs with heq
    · rw [heq, readReg_writeReg_same]
    · exact readReg_writeReg_other s r r' v heq
  · have hmem := storesWordAt_of_exec_next h
    rwa [hrs] at hmem

/-- Settles O11: `base0` of field 0 reads no register, and of another field it does not read `r0`. -/
theorem baseZeroIsLiteralZero : Obligations.BaseZeroIsLiteralZero := by
  intro s ra
  refine ⟨fun h => if_pos h, fun h => if_neg h, fun v => ?_⟩
  by_cases h : ra = 0#5
  · rw [base0, base0, if_pos h, if_pos h]
  · rw [base0, base0, if_neg h, if_neg h, readReg_writeReg_other s 0 ra v h]

/-- Registers outside `addressRegs` do not reach the address. -/
theorem storageAddress_congr {i : Instr} {s s' : State} (h : ∀ r ∈ addressRegs i, s.readReg r = s'.readReg r) :
    storageAddress i s = storageAddress i s' := by
  rw [storageAddress, storageAddress]
  cases i with
  | stw rs ra d =>
    by_cases hra : ra = 0#5
    · simp [storageSum, hra]
    · simp [storageSum, hra, h ra (by simp [addressRegs, hra])]
  | stwu rs ra d => simp [storageSum, h ra (by simp [addressRegs])]
  | stwux rs ra rb => simp [storageSum, h ra (by simp [addressRegs]), h rb (by simp [addressRegs])]
  | stwx rs ra rb =>
    by_cases hra : ra = 0#5
    · simp [storageSum, hra, h rb (by simp [addressRegs, hra])]
    · simp [storageSum, hra, h ra (by simp [addressRegs, hra]), h rb (by simp [addressRegs, hra])]

/-- Two states alike outside the registers, with one address and one word to store, have one outcome outside the
registers. -/
theorem exec_alike_outside_regs {i : Instr} {s s' : State} (hpc : s.pc = s'.pc) (hmem : s.mem = s'.mem)
    (hresv : s.resv = s'.resv) (hplatform : s.platform = s'.platform)
    (hea : storageAddress i s = storageAddress i s')
    (hword : lowWord s (sourceReg i) = lowWord s' (sourceReg i)) :
    (∃ t t', exec i s = .next t ∧ exec i s' = .next t' ∧
      t.pc = t'.pc ∧ t.mem = t'.mem ∧ t.resv = t'.resv ∧ t.platform = t'.platform) ∨
    (∃ e, exec i s = .refused e ∧ exec i s' = .refused e) := by
  have hrefusal := execRefusal_congr hpc hplatform hea
  cases h : execRefusal i s with
  | some e => exact .inr ⟨e, exec_of_refusal h, exec_of_refusal (hrefusal ▸ h)⟩
  | none =>
    refine .inl ⟨_, _, exec_of_no_refusal h, exec_of_no_refusal (hrefusal ▸ h), ?_⟩
    simp [hpc, hmem, hresv, hplatform, hea, hword]

/-- Settles O25: the registers of the table give the two states one address, and each completed instruction leaves in
the registers what `readReg_of_exec_next` says. -/
theorem registersReadAndWrittenAreTheTables : Obligations.RegistersReadAndWrittenAreTheTables := by
  intro i s s' hpc hmem hresv hplatform hword hregs
  have hea := storageAddress_congr hregs
  obtain ⟨t, t', h, h', hpc', hmem', hresv', hplatform'⟩ | hrefused :=
    exec_alike_outside_regs hpc hmem hresv hplatform hea hword
  · refine .inl ⟨t, t', h, h', hpc', hmem', hresv', hplatform', fun r => ?_⟩
    rw [readReg_of_exec_next h, readReg_of_exec_next h', hea]
    exact ⟨fun hr => ⟨if_pos hr, if_pos hr⟩, fun hr => ⟨if_neg hr, if_neg hr⟩⟩
  · exact .inr hrefused

/-! ### Memory and reservations -/

/-- Settles O15: a word store leaves its four bytes, the parts of them are what shorter reads see, and a store two
bytes on is outside the first two. -/
theorem mixedWidthView : Obligations.MixedWidthView := by
  refine ⟨fun m a v ha => ?_, fun m a v v' ha => ?_⟩
  · obtain ⟨h0, -, h2, h3, -⟩ := storesWordAt_write m a v
    refine ⟨(read_eq_some_iff _ a 1 _).mpr fun k hk => ?_, (read_eq_some_iff _ _ 2 _).mpr fun k hk => ?_⟩
    · obtain rfl : k = 0 := by omega
      simpa using h0
    · obtain rfl | rfl : k = 0 ∨ k = 1 := by omega
      · simpa using h2
      · rw [BitVec.add_assoc]
        simpa using h3
  · have h2 : (a + 2#32).toNat = a.toNat + 2 := toNat_add_of_fits a 2 6 (by decide) ha
    have h1 : (a + 1#32).toNat = a.toNat + 1 := toNat_add_of_fits a 1 6 (by decide) ha
    obtain ⟨hb0, hb1, -⟩ := storesWordAt_write m a v
    have hframe (b : Addr) (hb : b.toNat < a.toNat + 2) :
        ((m.write a 4 v).write (a + 2#32) 4 v').readByte b = (m.write a 4 v).readByte b :=
      readByte_of_storesWordAt_outside (by omega) (storesWordAt_write _ _ v') (.inl (by omega))
    refine ⟨?_, ?_, memReadIsTheInverse.2 _ _ 4 v' (by omega)⟩
    · rw [hframe a (by omega), hb0]
    · rw [hframe (a + 1#32) (by omega), hb1]

theorem wfFrom_cons {low k : Nat} {b : Byte} {rest : Memory} :
    Memory.wfFrom low ((k, b) :: rest) = true ↔ low ≤ k ∧ k < 2 ^ 32 ∧ Memory.wfFrom (k + 1) rest = true := by
  simp only [Memory.wfFrom, Bool.and_eq_true, decide_eq_true_eq, and_assoc]

theorem readByte_eq_none_of_lt {m : Memory} {low : Nat} (hwf : Memory.wfFrom low m = true) {a : Addr}
    (ha : a.toNat < low) : m.readByte a = none := by
  induction m generalizing low with
  | nil => rfl
  | cons c rest ih =>
    obtain ⟨k, b⟩ := c
    obtain ⟨hlow, -, hrest⟩ := wfFrom_cons.mp hwf
    rw [Memory.readByte, if_neg (by omega)]
    exact ih hrest (by omega)

/-- The first cell of a memory in canonical form is read at an address of its own. -/
theorem exists_readByte_head {low k : Nat} {b : Byte} {rest : Memory}
    (hwf : Memory.wfFrom low ((k, b) :: rest) = true) :
    ∃ a : Addr, a.toNat = k ∧ low ≤ a.toNat ∧ Memory.readByte ((k, b) :: rest) a = some b := by
  obtain ⟨hlow, hspace, -⟩ := wfFrom_cons.mp hwf
  have hk : (BitVec.ofNat 32 k).toNat = k := by rw [BitVec.toNat_ofNat, Nat.mod_eq_of_lt hspace]
  exact ⟨BitVec.ofNat 32 k, hk, hlow.trans_eq hk.symm, if_pos hk.symm⟩

/-- No byte is read below the first cell. -/
theorem head_le_of_readByte {low k : Nat} {b c : Byte} {rest : Memory}
    (hwf : Memory.wfFrom low ((k, b) :: rest) = true) {a : Addr}
    (h : Memory.readByte ((k, b) :: rest) a = some c) : k ≤ a.toNat := by
  obtain ⟨-, hspace, hrest⟩ := wfFrom_cons.mp hwf
  by_contra hlt
  rw [readByte_eq_none_of_lt (low := k) (wfFrom_cons.mpr ⟨le_rfl, hspace, hrest⟩) (by omega)] at h
  cases h

/-- Memories whose addresses rise from `low` on and that read alike there are equal. -/
theorem eq_of_readByte_eq {m m' : Memory} (low : Nat) (hwf : Memory.wfFrom low m = true)
    (hwf' : Memory.wfFrom low m' = true) (hread : ∀ a : Addr, low ≤ a.toNat → m.readByte a = m'.readByte a) :
    m = m' := by
  induction m generalizing low m' with
  | nil =>
    cases m' with
    | nil => rfl
    | cons c' rest' =>
      obtain ⟨a', -, hlow', hhead'⟩ := exists_readByte_head hwf'
      cases (hread a' hlow').trans hhead'
  | cons c rest ih =>
    obtain ⟨k, b⟩ := c
    obtain ⟨a, rfl, hlow, hhead⟩ := exists_readByte_head hwf
    have hother := (hread a hlow).symm.trans hhead
    cases m' with
    | nil => cases hother
    | cons c' rest' =>
      obtain ⟨k', b'⟩ := c'
      obtain ⟨a', rfl, hlow', hhead'⟩ := exists_readByte_head hwf'
      have hle := head_le_of_readByte hwf' hother
      have hge := head_le_of_readByte hwf ((hread a' hlow').trans hhead')
      obtain rfl : a = a' := BitVec.eq_of_toNat_eq (by omega)
      obtain rfl : b = b' := Option.some.inj (hhead.symm.trans ((hread a hlow).trans hhead'))
      have hrest := ih (a.toNat + 1) (wfFrom_cons.mp hwf).2.2 (wfFrom_cons.mp hwf').2.2 fun x hx => by
        have h := hread x (by omega)
        rwa [Memory.readByte, if_neg (by omega), Memory.readByte, if_neg (by omega)] at h
      rw [hrest]

/-- Settles O16: the first cells are at the same address, since no byte is read below a first cell, and they and the
rest read alike. -/
theorem canonicalMemoryIsDeterminedByReads : Obligations.CanonicalMemoryIsDeterminedByReads :=
  fun _ _ hwf hwf' hread => eq_of_readByte_eq 0 hwf hwf' fun a _ => hread a

/-- Every set of values of a finite type can be listed. -/
theorem exists_list_mem_iff {α : Type} [Finite α] (p : α → Prop) : ∃ l : List α, ∀ x, x ∈ l ↔ p x :=
  ⟨(Set.toFinite {x | p x}).toFinset.toList, by simp⟩

/-- The entry of one access. -/
def singleAccess (x : Addr × Nat) : AccessRange := { bytes := x.2, starts := { base := x.1, size := 1 } }

/-- The range of one address. -/
def singleRegion (b : Addr) : Region := { base := b, size := 1 }

theorem eq_of_toNat_between {a b : Addr} : (b.toNat ≤ a.toNat ∧ a.toNat < b.toNat + 1) ↔ b = a := by
  rw [← BitVec.toNat_inj]
  omega

theorem inRegions_singleRegions_iff (l : List Addr) (a : Addr) :
    inRegions (l.map singleRegion) a.toNat ↔ a ∈ l := by
  simp only [inRegions, List.mem_map, exists_exists_and_eq_and, singleRegion, eq_of_toNat_between, exists_eq_right]

theorem inAccesses_singleAccesses_iff (l : List (Addr × Nat)) (a : Addr) (n : Nat) :
    inAccesses (l.map singleAccess) a.toNat n ↔ (a, n) ∈ l := by
  simp only [inAccesses, List.mem_map, exists_exists_and_eq_and, singleAccess, eq_of_toNat_between]
  constructor
  · rintro ⟨_, h, rfl, rfl⟩
    exact h
  · intro h
    exact ⟨_, h, rfl, rfl⟩

/-- Settles O17: one entry for each access that the predicate rejects, one range for each address that it takes; of
byte counts only those up to the size of the space matter. -/
theorem everyAdmitsCanBeListed : Obligations.EveryAdmitsCanBeListed := by
  refine ⟨fun f => ?_, fun f => ?_⟩
  · obtain ⟨l, hl⟩ := exists_list_mem_iff fun x : Addr × Fin (2 ^ 32 + 1) => f x.1 x.2 = false
    refine ⟨(l.map fun x => (x.1, x.2.val)).map singleAccess, fun p a n => ?_⟩
    rw [admits, Bool.and_eq_true, Bool.not_eq_true', ← Bool.not_eq_true, anyAccess_iff, decide_eq_true_eq,
      inAccesses_singleAccesses_iff, ← Bool.not_eq_false]
    refine and_congr_right fun hfits => not_congr ?_
    rw [List.mem_map]
    constructor
    · rintro ⟨x, hx, h⟩
      cases h
      exact (hl x).mp hx
    · intro h
      have hn : n < 2 ^ 32 + 1 := by omega
      exact ⟨(a, ⟨n, hn⟩), (hl _).mpr h, rfl⟩
  · obtain ⟨l, hl⟩ := exists_list_mem_iff fun a => f a = true
    refine ⟨l.map singleRegion, fun a => ?_⟩
    rw [Bool.eq_iff_iff, anyHolds_iff, inRegions_singleRegions_iff, hl]

/-- Settles O19: without an update the second store has the same address and the same word, so it stores a word over
itself. -/
theorem identicalStoresLeaveTheSameMemory : Obligations.IdenticalStoresLeaveTheSameMemory := by
  intro i s t u hplain hst htu
  have hregs := regs_of_exec_next hplain hst
  have hea : storageAddress i t = storageAddress i s := storageAddress_congr fun r _ => readReg_congr hregs r
  have hword : lowWord t (sourceReg i) = lowWord s (sourceReg i) := by rw [lowWord, lowWord, readReg_congr hregs]
  have hsecond := storesWordAt_of_exec_next htu
  rw [hea, hword] at hsecond
  exact ⟨regs_of_exec_next hplain htu, readByte_of_storesWordAt_twice (storesWordAt_of_exec_next hst) hsecond⟩

/-- Settles O20: the reservations left are those of R27, and the unit of the address stored to holds its first byte.
-/
theorem storeCancelsOverlappingReservations : Obligations.StoreCancelsOverlappingReservations := by
  intro i s t h
  obtain ⟨-, -, hresv, -⟩ := exec_done h
  rw [hresv]
  refine ⟨mem_reservationsLeft _ _, fun hmem => ?_⟩
  exact ((mem_reservationsLeft ..).mp hmem).2 0 (by decide) rfl

/-! ### The four instructions -/

theorem wellFormed_of_plain {i : Instr} (h : updatedReg i = none) : i.wellFormed = true := by
  cases i with
  | stw => rfl
  | stwu => cases h
  | stwux => cases h
  | stwx => rfl

/-- A form that updates no register completes where R100 refuses nothing. -/
theorem stores_of_plain {i : Instr} (hplain : updatedReg i = none) (s : State) :
    (MayStore s (storageAddress i s) →
      ∃ t, exec i s = .next t ∧ StoreDone s t (storageAddress i s) (lowWord s (sourceReg i)) ∧
        t.regs = s.regs) ∧
    (¬ MayStore s (storageAddress i s) → ∃ r, exec i s = .refused r) := by
  have hwf := wellFormed_of_plain hplain
  obtain ⟨-, hmay, h⟩ | ⟨hnot, hrefused⟩ := exec_cases i s
  · exact ⟨fun _ => ⟨_, h, (exec_done h).2, regs_of_exec_next hplain h⟩, fun hn => absurd hmay hn⟩
  · exact ⟨fun hmay => absurd hmay (hnot.resolve_left (by simp [hwf])), fun _ => hrefused⟩

/-- The valid forms of the update instructions (R80). -/
theorem wellFormed_iff_of_updatedReg {i : Instr} {ra : RegNum} (h : updatedReg i = some ra) :
    i.wellFormed = true ↔ ra ≠ 0#5 := by
  cases i <;> cases h <;> exact bne_iff_ne

/-- An update form completes where `RA` is not 0 and R100 refuses nothing. -/
theorem stores_of_update {i : Instr} {ra : RegNum} (hupdate : updatedReg i = some ra) (s : State) :
    (ra ≠ 0#5 → MayStore s (storageAddress i s) →
      ∃ t, exec i s = .next t ∧ StoreDone s t (storageAddress i s) (lowWord s (sourceReg i)) ∧
        ∀ r, t.readReg r = if r = ra then (storageAddress i s).setWidth 64 else s.readReg r) ∧
    (ra = 0#5 ∨ ¬ MayStore s (storageAddress i s) → ∃ r, exec i s = .refused r) := by
  have hwf := wellFormed_iff_of_updatedReg hupdate
  obtain ⟨hvalid, hmay, h⟩ | ⟨hnot, hrefused⟩ := exec_cases i s
  · refine ⟨fun _ _ => ⟨_, h, (exec_done h).2, fun r => ?_⟩, fun hn => ?_⟩
    · rw [readReg_of_exec_next h, hupdate]
      simp only [Option.some_inj, eq_comm]
    · exact absurd hmay (hn.resolve_left (hwf.mp hvalid))
  · refine ⟨fun hra hmay => ?_, fun _ => hrefused⟩
    exact absurd hmay (hnot.resolve_left (by simp [hwf.mpr hra]))

/-- Settles O21: `stw` updates no register. -/
theorem stwStoresWord : Obligations.StwStoresWord :=
  fun s rs ra d => stores_of_plain (i := .stw rs ra d) rfl s

/-- Settles O22: `stwu` updates `RA`. -/
theorem stwuStoresWordAndUpdates : Obligations.StwuStoresWordAndUpdates :=
  fun s rs ra d => stores_of_update (i := .stwu rs ra d) rfl s

/-- Settles O23: `stwux` updates `RA`. -/
theorem stwuxStoresWordAndUpdates : Obligations.StwuxStoresWordAndUpdates :=
  fun s rs ra rb => stores_of_update (i := .stwux rs ra rb) rfl s

/-- Settles O24: `stwx` updates no register. -/
theorem stwxStoresWord : Obligations.StwxStoresWord :=
  fun s rs ra rb => stores_of_plain (i := .stwx rs ra rb) rfl s

/-- Settles O26: the frame of every instruction, and a register file that is kept where no register is updated. -/
theorem plainStoresFrame : Obligations.PlainStoresFrame :=
  ⟨fun _ _ _ _ _ h => ⟨regs_of_exec_next rfl h, frame_of_exec_next rfl h⟩,
    fun _ _ _ _ _ h => ⟨regs_of_exec_next rfl h, frame_of_exec_next rfl h⟩⟩

/-- Settles O27: the frame of every instruction, and every register kept that is not the one updated. -/
theorem updateStoresFrame : Obligations.UpdateStoresFrame :=
  ⟨fun _ _ _ _ _ h => ⟨fun _ hr => readReg_of_exec_next_other h fun e => hr (Option.some.inj e).symm,
      frame_of_exec_next rfl h⟩,
    fun _ _ _ _ _ h => ⟨fun _ hr => readReg_of_exec_next_other h fun e => hr (Option.some.inj e).symm,
      frame_of_exec_next rfl h⟩⟩

/-- Settles O28: the address and the word of a completed instruction are those of the state before it. -/
theorem storeComesBeforeUpdate : Obligations.StoreComesBeforeUpdate :=
  ⟨fun _ _ ra _ h => ⟨storesWordAt_of_exec_next h, (readReg_of_exec_next h ra).trans (if_pos rfl)⟩,
    fun _ _ ra _ h => ⟨storesWordAt_of_exec_next h, (readReg_of_exec_next h ra).trans (if_pos rfl)⟩⟩

/-! ### Refusals -/

/-- Settles O29: the invalid form is refused with its word, which is the formula of R85 with the field `RA` 0. -/
theorem updateFormsRefuseBaseZero : Obligations.UpdateFormsRefuseBaseZero := by
  refine ⟨fun s rs d => ?_, fun s rs rb => ?_⟩
  · rw [exec_of_invalid rfl, (assembledWordIsTheFormula.1 rs 0 d).2]
    simp
  · rw [exec_of_invalid rfl, (assembledWordIsTheFormula.2.1 rs 0 rb).1]
    simp

/-- Settles O30: a valid form is refused for its own reasons in the order of `execRefusal`, and the check of the
access answers the first of its three. -/
theorem storeRefusalsComeInOrder : Obligations.StoreRefusalsComeInOrder := by
  intro i s hwf ea
  have haccess (hroom : PcHasRoom s) : execRefusal i s = accessRefusal s.platform ea := by
    simp [execRefusal, hwf, hroom, ea]
  have hcases := accessRefusal_cases s ea
  refine ⟨fun hpc => exec_of_refusal ?_, fun hroom hA => exec_of_refusal ?_,
    fun hroom hA hC => exec_of_refusal ?_, fun hroom hA hC hI => exec_of_refusal ?_⟩
  · simp [execRefusal, hwf, not_not.mp hpc]
  · rw [haccess hroom]
    tauto
  · rw [haccess hroom]
    tauto
  · rw [haccess hroom]
    tauto

/-- Settles O32: of the answers of `exec_cases` none is a fault. -/
theorem noInstructionRaisesAnException : Obligations.NoInstructionRaisesAnException := by
  intro i s
  obtain ⟨-, -, h⟩ | ⟨-, h⟩ := exec_cases i s
  · exact .inl ⟨_, h⟩
  · exact .inr h

end Sys2Proof.Machine

/-! SUPPORT. What a step answers, outcome by outcome, and the load of one word; with them the statements on single
steps and on `END_PC` of 20_memory.md section 6 and 70_reset_and_hazards.md section 2. -/

namespace Sys2Proof.Machine

/-! ### The fetch (R52, R53) -/

section Fetch

variable {s : State}

theorem fetch_of_misaligned (halign : s.pc.toNat % 4 ≠ 0) : fetch s = .refused (.misalignedFetch s.pc) :=
  if_pos halign

theorem fetch_of_outside_code (halign : s.pc.toNat % 4 = 0) (hcode : ¬ inRegions s.platform.code s.pc.toNat) :
    fetch s = .refused (.fetchOutsideCode s.pc) := by
  rw [← anyHolds_iff] at hcode
  simp [fetch, halign, hcode]

theorem fetch_of_read_eq_none (halign : s.pc.toNat % 4 = 0) (hcode : inRegions s.platform.code s.pc.toNat)
    (hread : s.mem.read s.pc 4 = none) : fetch s = .fault (.fetchUnwritten s.pc) := by
  rw [← anyHolds_iff] at hcode
  simp [fetch, halign, hcode, hread]

theorem fetch_of_read_eq_some (halign : s.pc.toNat % 4 = 0) (hcode : inRegions s.platform.code s.pc.toNat) {w : Word}
    (hread : s.mem.read s.pc 4 = some w) : fetch s = .next w := by
  rw [← anyHolds_iff] at hcode
  simp [fetch, halign, hcode, hread]

/-- The one fault of a fetch. -/
theorem fetch_fault {f : Fault} (h : fetch s = .fault f) :
    s.pc.toNat % 4 = 0 ∧ inRegions s.platform.code s.pc.toNat ∧ s.mem.read s.pc 4 = none := by
  by_cases halign : s.pc.toNat % 4 = 0
  · by_cases hcode : inRegions s.platform.code s.pc.toNat
    · refine ⟨halign, hcode, ?_⟩
      cases hread : s.mem.read s.pc 4 with
      | none => rfl
      | some w => cases (fetch_of_read_eq_some halign hcode hread).symm.trans h
    · cases (fetch_of_outside_code halign hcode).symm.trans h
  · cases (fetch_of_misaligned halign).symm.trans h

/-! ### The step (R8, R143) -/

theorem step_at_endPc (h : s.pc = s.platform.endPc) : step s = .fault (.endOfRun s.pc) :=
  if_pos h

theorem step_of_fetch_fault (hend : s.pc ≠ s.platform.endPc) {f : Fault} (hfetch : fetch s = .fault f) :
    step s = .fault f := by
  rw [step, if_neg hend, hfetch]

theorem step_of_fetch_refused (hend : s.pc ≠ s.platform.endPc) {r : Refusal} (hfetch : fetch s = .refused r) :
    step s = .refused r := by
  rw [step, if_neg hend, hfetch]

theorem step_of_notInScope (hend : s.pc ≠ s.platform.endPc) {w : Word} (hfetch : fetch s = .next w)
    {e : DecodeError} (hdecode : decodeWord w = .error e) : step s = .refused (.notInScope w) := by
  simp [step, hend, hfetch, hdecode]

theorem step_of_decodeWord (hend : s.pc ≠ s.platform.endPc) {w : Word} (hfetch : fetch s = .next w) {i : Instr}
    (hdecode : decodeWord w = .ok i) : step s = exec i s := by
  simp [step, hend, hfetch, hdecode]

end Fetch

theorem decodeWord_of_decode {b0 b1 b2 b3 : Byte} {i : Instr} {rest : List Byte}
    (h : decode [b0, b1, b2, b3] = .ok (i, rest)) : decodeWord (wordOfBytes b0 b1 b2 b3) = .ok i := by
  rw [decode] at h
  cases hw : decodeWord (wordOfBytes b0 b1 b2 b3) with
  | ok j =>
    rw [hw] at h
    cases h
    rfl
  | error e =>
    rw [hw] at h
    cases h

/-- Settles O33: the four bytes at `pc` are the word fetched. -/
theorem stepRunsTheDecodedInstruction : Obligations.StepRunsTheDecodedInstruction := by
  intro s b0 b1 b2 b3 i hend halign hcode h0 h1 h2 h3 hdecode
  have hread := read_word s.mem s.pc b0 b1 b2 b3 h0 h1 h2 h3
  exact step_of_decodeWord hend (fetch_of_read_eq_some halign hcode hread) (decodeWord_of_decode hdecode)

theorem read_eq_none_of_readByte {m : Memory} {a : Addr} {n k : Nat} (hk : k < n)
    (h : m.readByte (a + BitVec.ofNat 32 k) = none) : m.read a n = none := by
  cases hread : m.read a n with
  | none => rfl
  | some v => cases ((read_eq_some_iff m a n v).mp hread k hk).symm.trans h

/-- Settles O34: each clause is one answer of the fetch, or of the decoder after it. -/
theorem stepStopsBeforeAnInstruction : Obligations.StepStopsBeforeAnInstruction := by
  intro s
  refine ⟨step_at_endPc, fun hend halign => ?_, fun hend halign hcode => ?_,
    fun hend halign hcode ⟨k, hk, hnone⟩ => ?_, fun w hend halign hcode hread hdecode => ?_⟩
  · exact step_of_fetch_refused hend (fetch_of_misaligned halign)
  · exact step_of_fetch_refused hend (fetch_of_outside_code halign hcode)
  · exact step_of_fetch_fault hend (fetch_of_read_eq_none halign hcode (read_eq_none_of_readByte hk hnone))
  · exact step_of_notInScope hend (fetch_of_read_eq_some halign hcode hread) hdecode

/-- Settles O35: no code is loaded and no byte of memory holds a value. -/
theorem resetStateIsLawful : Obligations.ResetStateIsLawful :=
  ⟨by decide, rfl, fun _ => rfl⟩

/-! ### `END_PC` (R143) -/

theorem defaultEndPc_eq_some_iff (code : List Region) (e : Addr) :
    defaultEndPc code = some e ↔ 0 < codeEnd code ∧ e.toNat = codeEnd code := by
  have he := e.isLt
  rw [defaultEndPc]
  split_ifs with h
  · rw [Option.some_inj, ← BitVec.toNat_inj, BitVec.toNat_ofNat]
    omega
  · simp only [false_iff]
    omega

/-- Settles O36: the end of the code is the number that bounds every byte of it and whose predecessor is one. In
whole words the range that holds the predecessor ends there, so it is a multiple of 4. -/
theorem defaultEndPcIsJustPastTheProgram : Obligations.DefaultEndPcIsJustPastTheProgram := by
  have hiff (code : List Region) (e : Addr) : defaultEndPc code = some e ↔
      inRegions code (e.toNat - 1) ∧ ∀ a, inRegions code a → a < e.toNat := by
    obtain ⟨hbelow, hlast⟩ := codeEnd_spec code
    rw [defaultEndPc_eq_some_iff]
    constructor
    · rintro ⟨hpos, he⟩
      rw [he]
      exact ⟨hlast hpos.ne', hbelow⟩
    · rintro ⟨hpred, hbound⟩
      have hlow := hbelow _ hpred
      have hhigh := hbound _ (hlast (by omega))
      omega
  refine ⟨hiff, fun p e hwords he => ?_⟩
  obtain ⟨⟨r, hr, hlo, hhi⟩, hbound⟩ := (hiff p.code e).mp he
  obtain ⟨hbase, hsize, -⟩ := hwords r hr
  have hend := hbound (r.base.toNat + r.size - 1) ⟨r, hr, by omega, by omega⟩
  refine ⟨hwords, ?_, fun hin => lt_irrefl _ (hbound _ hin)⟩
  change e.toNat % 4 = 0
  omega

/-! ### The load of one word (log entry 15) -/

theorem toNat_clear_low_bits_mod (a : Addr) : (a &&& 0xFFFFFFFC#32).toNat % 4 = 0 := by
  rw [BitVec.toNat_and]
  exact (Nat.and_mod_two_pow (n := 2)).trans (Nat.and_zero _)

theorem inRegions_withFetchWord_pc (s : State) (nbits w : Nat) :
    inRegions (s.withFetchWord nbits w).platform.code (s.withFetchWord nbits w).pc.toNat :=
  ⟨_, List.mem_cons_self, le_rfl, Nat.lt_add_of_pos_right (Nat.zero_lt_succ 3)⟩

/-- The load leaves `END_PC` where it was, or moves it to where `endPcOutside` puts it. -/
theorem withFetchWord_endPc_ne_pc (s : State) (nbits w : Nat) :
    (s.withFetchWord nbits w).pc ≠ (s.withFetchWord nbits w).platform.endPc := by
  rw [withFetchWord_endPc]
  split_ifs with h
  · rcases endPcOutside_cases (s.withFetchWord nbits w).platform.code ((s.pc &&& 0xFFFFFFFC#32) + 4#32) with
      ⟨hout, -⟩ | ⟨hspare, -⟩
    · exact fun e => hout (e ▸ inRegions_withFetchWord_pc s nbits w)
    · rw [hspare, withFetchWord_pc]
      intro e
      simp at e
  · exact fun e => h e.symm

/-- Settles O38: the load puts the word where the next step fetches, and `END_PC` elsewhere. -/
theorem loadedWordRunsNext : Obligations.LoadedWordRunsNext := by
  intro s nbits w i hdecode
  have halign := toNat_clear_low_bits_mod s.pc
  have hread : (s.withFetchWord nbits w).mem.read (s.withFetchWord nbits w).pc 4 = some (tableWord nbits w) :=
    memReadIsTheInverse.2 s.mem _ 4 _ (by omega)
  exact step_of_decodeWord (withFetchWord_endPc_ne_pc s nbits w)
    (fetch_of_read_eq_some halign (inRegions_withFetchWord_pc s nbits w) hread) hdecode

/-- Where the address just past every range of code is code, modulo 2^32, so is every address a number of words past
an aligned address of code. -/
theorem inRegions_add_words {p : Platform} (hwords : CodeInWords p)
    (hends : ∀ r ∈ p.code, inRegions p.code (r.base + BitVec.ofNat 32 r.size).toNat) {a : Addr}
    (halign : a.toNat % 4 = 0) (ha : inRegions p.code a.toNat) (n : Nat) :
    inRegions p.code (a + BitVec.ofNat 32 (4 * n)).toNat := by
  induction n with
  | zero => simpa using ha
  | succ n ih =>
    obtain ⟨r, hr, hlo, hhi⟩ := ih
    obtain ⟨hbase, hsize, hspace⟩ := hwords r hr
    have hnext : (a + BitVec.ofNat 32 (4 * n)).toNat % 4 = 0 ∧
        (a + BitVec.ofNat 32 (4 * (n + 1))).toNat = ((a + BitVec.ofNat 32 (4 * n)).toNat + 4) % 2 ^ 32 := by
      simp only [BitVec.toNat_add, BitVec.toNat_ofNat]
      omega
    obtain ⟨halign', hnext⟩ := hnext
    by_cases hlast : (a + BitVec.ofNat 32 (4 * n)).toNat + 4 < r.base.toNat + r.size
    · exact ⟨r, hr, by omega, by omega⟩
    · have heq : a + BitVec.ofNat 32 (4 * (n + 1)) = r.base + BitVec.ofNat 32 r.size := by
        apply BitVec.eq_of_toNat_eq
        rw [hnext, BitVec.toNat_add r.base, BitVec.toNat_ofNat]
        omega
      rw [heq]
      exact hends r hr

/-- Where some word of the space is not code, the choice of an `END_PC` finds a lawful one. -/
theorem lawful_endPcOutside {p : Platform} (hwords : CodeInWords p) {a e : Addr} (ha4 : a.toNat % 4 = 0)
    (ha : inRegions p.code a.toNat) (he4 : e.toNat % 4 = 0) (he : ¬ inRegions p.code e.toNat) (spare : Addr) :
    (endPcOutside p.code spare).toNat % 4 = 0 ∧ ¬ inRegions p.code (endPcOutside p.code spare).toNat := by
  obtain ⟨hout, hdefault | ⟨r, hr, hend⟩⟩ | ⟨-, hends⟩ := endPcOutside_cases p.code spare
  · exact (defaultEndPcIsJustPastTheProgram.2 p _ hwords hdefault).2
  · obtain ⟨hbase, hsize, -⟩ := hwords r hr
    refine ⟨?_, hout⟩
    rw [← hend, BitVec.toNat_add, BitVec.toNat_ofNat]
    omega
  · have hreach : a + BitVec.ofNat 32 (4 * ((e - a).toNat / 4)) = e := by
      have := (e - a).isLt
      have hdiff : 4 * ((e - a).toNat / 4) = (e - a).toNat := by
        rw [BitVec.toNat_sub]
        omega
      rw [hdiff, BitVec.ofNat_toNat, BitVec.setWidth_eq, add_sub_cancel]
    exact absurd (hreach ▸ inRegions_add_words hwords hends ha4 ha _) he

/-- Settles O37: the loaded word is a whole word of code at an aligned `pc`, so an aligned `END_PC` elsewhere stays
outside, and one in the way moves to a lawful place, for which the premise leaves room. -/
theorem loadKeepsLawful : Obligations.LoadKeepsLawful := by
  rintro s nbits w ⟨hwf, -, hwords, hend4, hend⟩ ⟨e, he4, he⟩
  have halign := toNat_clear_low_bits_mod s.pc
  have hwords' : CodeInWords (s.withFetchWord nbits w).platform := by
    intro r hr
    rcases List.mem_cons.mp hr with rfl | hr
    · exact ⟨halign, Nat.mod_self 4, by dsimp only; omega⟩
    · exact hwords r hr
  refine ⟨wf_write _ _ 4 _ hwf, halign, hwords', ?_⟩
  rw [withFetchWord_endPc]
  split_ifs with h
  · exact lawful_endPcOutside hwords' halign (inRegions_withFetchWord_pc s nbits w) he4 he _
  · refine ⟨hend4, ?_⟩
    rintro ⟨r, hr, hlo, hhi⟩
    rcases List.mem_cons.mp hr with rfl | hr
    · exact h (BitVec.eq_of_toNat_eq (by dsimp only at hlo hhi; omega))
    · exact hend ⟨r, hr, hlo, hhi⟩

end Sys2Proof.Machine

/-! SUPPORT. What every step keeps, and what every run keeps by it; with them the statements on runs of
70_reset_and_hazards.md, 20_memory.md section 7 and 40_store_word.md section 6. -/

namespace Sys2Proof.Machine

/-! ### One step -/

/-- What a completed step has done outside the registers: the store of the fetched instruction. -/
theorem step_done {s t : State} (h : step s = .next t) :
    ∃ ea v, MayStore s ea ∧ StoreDone s t ea v := by
  obtain ⟨-, -, -, -, i, -, -, hexec⟩ := step_next h
  exact ⟨_, _, exec_done hexec⟩

/-- There is room above `pc`, so its advance does not wrap. -/
theorem toNat_pc_of_step {s t : State} (h : step s = .next t) : t.pc.toNat = s.pc.toNat + 4 := by
  obtain ⟨-, halign, -⟩ := step_next h
  obtain ⟨ea, v, ⟨hroom, -⟩, -, -, hpc, -⟩ := step_done h
  have hroom : s.pc.toNat ≠ 0xFFFFFFFC := fun e => hroom (BitVec.eq_of_toNat_eq e)
  have hlt := s.pc.isLt
  rw [hpc]
  exact toNat_add_of_fits s.pc 4 5 (by decide) (by omega)

theorem platform_of_step {s t : State} (h : step s = .next t) : t.platform = s.platform := by
  obtain ⟨ea, v, -, -, -, -, hplatform⟩ := step_done h
  exact hplatform

theorem wf_mem_of_step {s t : State} (h : step s = .next t) (hwf : s.mem.wf = true) : t.mem.wf = true := by
  obtain ⟨-, -, -, -, i, -, -, hexec⟩ := step_next h
  obtain ⟨-, -, rfl⟩ := exec_next hexec
  rw [commitStore_mem]
  exact wf_write _ _ 4 _ hwf

/-- A store that touches no code changes no byte of it. -/
theorem readByte_code_of_step {s t : State} (h : step s = .next t) {a : Addr}
    (ha : inRegions s.platform.code a.toNat) : t.mem.readByte a = s.mem.readByte a := by
  obtain ⟨ea, v, ⟨-, ⟨hfits, -⟩, hclear, -⟩, hmem, -⟩ := step_done h
  refine readByte_of_storesWordAt_outside hfits hmem ?_
  by_contra hin
  obtain ⟨k, hk⟩ : ∃ k, a.toNat = ea.toNat + k := ⟨a.toNat - ea.toNat, by omega⟩
  exact hclear k (by omega) (hk ▸ ha)

/-- Settles O39: a step writes memory by word stores alone, moves `pc` on by 4 and leaves the parameters. -/
theorem stepKeepsLawful : Obligations.StepKeepsLawful := by
  rintro s t ⟨hwf, halign, hplatform⟩ h
  refine ⟨wf_mem_of_step h hwf, ?_, platform_of_step h ▸ hplatform⟩
  rw [toNat_pc_of_step h]
  omega

/-! ### Program text (D15) -/

/-- What every run keeps of program text: where it is, and its bytes. -/
def KeepsProgramText (s t : State) : Prop :=
  t.platform = s.platform ∧ ∀ a : Addr, inRegions s.platform.code a.toNat → t.mem.readByte a = s.mem.readByte a

theorem keepsProgramText_of_step {s u t : State} (hstep : step s = .next u) (hrest : KeepsProgramText u t) :
    KeepsProgramText s t := by
  obtain ⟨hplatform, hbytes⟩ := hrest
  have hfirst := platform_of_step hstep
  refine ⟨hplatform.trans hfirst, fun a ha => ?_⟩
  rw [hbytes a (hfirst ▸ ha), readByte_code_of_step hstep ha]

/-- Settles O41: by induction on the run, each step changing neither the code's bytes nor where the code is. -/
theorem runNeverChangesProgramText : Obligations.RunNeverChangesProgramText :=
  fun n _ _ => run_induction (P := KeepsProgramText) (fun _ => ⟨rfl, fun _ _ => rfl⟩) keepsProgramText_of_step n

/-- In whole words, the four bytes of an aligned word whose first is code are code. -/
theorem inRegions_word {p : Platform} (hwords : CodeInWords p) {a : Addr} (halign : a.toNat % 4 = 0)
    (ha : inRegions p.code a.toNat) {k : Nat} (hk : k < 4) :
    inRegions p.code (a + BitVec.ofNat 32 k).toNat := by
  obtain ⟨r, hr, hlo, hhi⟩ := ha
  obtain ⟨hbase, hsize, hspace⟩ := hwords r hr
  rw [toNat_add_of_fits a k 4 hk (by omega)]
  exact ⟨r, hr, by omega, by omega⟩

theorem launchCode_of_step {program : Program} {s t : State} (h : step s = .next t) (hcode : LaunchCode program s) :
    LaunchCode program t := by
  obtain ⟨hwords, hholds⟩ := hcode
  rw [LaunchCode, platform_of_step h]
  refine ⟨hwords, fun a halign ha => ?_⟩
  have hread := (read_eq_some_iff _ a 4 _).mp (hholds a halign ha)
  refine (read_eq_some_iff _ a 4 _).mpr fun k hk => ?_
  rw [readByte_code_of_step h (inRegions_word hwords halign ha hk), hread k hk]

/-- The one fault of a step where the code holds a program: the end of the run. -/
theorem step_fault_of_launchCode {program : Program} {s : State} (hcode : LaunchCode program s) {f : Fault}
    (h : step s = .fault f) : s.pc = s.platform.endPc ∧ f = .endOfRun s.pc := by
  by_cases hend : s.pc = s.platform.endPc
  · rw [step_at_endPc hend] at h
    exact ⟨hend, (Host.Outcome.fault.inj h).symm⟩
  · cases hfetch : fetch s with
    | next w =>
      cases hdecode : decodeWord w with
      | ok i =>
        rw [step_of_decodeWord hend hfetch hdecode] at h
        obtain ⟨u, hu⟩ | ⟨r, hr⟩ := noInstructionRaisesAnException i s
        · cases hu.symm.trans h
        · cases hr.symm.trans h
      | error e => cases (step_of_notInScope hend hfetch hdecode).symm.trans h
    | fault g =>
      obtain ⟨halign, hpc, hread⟩ := fetch_fault hfetch
      cases (hcode.2 s.pc halign hpc).symm.trans hread
    | refused r => cases (step_of_fetch_refused hend hfetch).symm.trans h

/-- Settles O43: the fetch reads a word of the program, and the store leaves every word of it. -/
theorem stepKeepsLaunchCode : Obligations.StepKeepsLaunchCode := by
  intro program s hlawful hcode
  refine ⟨fun pc h => ?_, fun t h => ⟨stepKeepsLawful s t hlawful h, launchCode_of_step h hcode⟩⟩
  cases (step_fault_of_launchCode hcode h).2

/-- Settles O44: the program is there after every step of the run, so the last step's one fault is the end. -/
theorem launchedRunStopsOnlyAtItsEndOrRefused : Obligations.LaunchedRunStopsOnlyAtItsEndOrRefused := by
  rintro n program held s t ⟨-, -, hcode, -, -⟩ hrun
  have hkept : LaunchCode program t :=
    run_induction (P := fun s t => LaunchCode program s → LaunchCode program t) (fun _ h => h)
      (fun hstep hrest h => hrest (launchCode_of_step hstep h)) n hrun hcode
  cases h : step t with
  | next u => exact .inl ⟨u, rfl⟩
  | refused r => exact .inr (.inl ⟨r, rfl⟩)
  | fault f =>
    obtain ⟨hend, rfl⟩ := step_fault_of_launchCode hkept h
    exact .inr (.inr ⟨hend, rfl⟩)

/-! ### The shape of a run (R143) -/

/-- Settles O40: each step moves `pc` on by 4 as a number. -/
theorem runAdvancesStraight : Obligations.RunAdvancesStraight := by
  intro n
  induction n with
  | zero =>
    intro s t h
    rw [← Host.Outcome.next.inj h, Nat.mul_zero, Nat.add_zero]
  | succ n ih =>
    intro s t h
    obtain ⟨u, hstep, hrun⟩ := run_succ_next h
    have hpc := toNat_pc_of_step hstep
    rw [ih u t hrun]
    omega

theorem run_of_step {s u : State} (h : step s = .next u) (n : Nat) : run (n + 1) s = run n u := by
  simp [run, h]

theorem run_of_step_fault {s : State} {f : Fault} (h : step s = .fault f) (n : Nat) : run (n + 1) s = .fault f := by
  simp [run, h]

theorem run_of_step_refused {s : State} {r : Refusal} (h : step s = .refused r) (n : Nat) :
    run (n + 1) s = .refused r := by
  simp [run, h]

/-- A run that has come to a state without a next one is the longest from its start. -/
theorem le_of_run_stops {n m : Nat} {s t u : State} (hn : run n s = .next t) (hstop : ∀ v, step t ≠ .next v)
    (hm : run m s = .next u) : m ≤ n := by
  induction n generalizing s m with
  | zero =>
    obtain rfl := Host.Outcome.next.inj hn
    cases m with
    | zero => exact le_rfl
    | succ m =>
      obtain ⟨v, hstep, -⟩ := run_succ_next hm
      exact absurd hstep (hstop v)
  | succ n ih =>
    cases m with
    | zero => exact Nat.zero_le _
    | succ m =>
      obtain ⟨v, hstep, hn⟩ := run_succ_next hn
      rw [run_of_step hstep] at hm
      exact Nat.succ_le_succ (ih hn hm)

/-- Two runs from one state that have come to states without a next one are the same run. -/
theorem run_stops_unique {n m : Nat} {s t u : State} (hn : run n s = .next t) (hstop : ∀ v, step t ≠ .next v)
    (hm : run m s = .next u) (hstop' : ∀ v, step u ≠ .next v) : m = n ∧ u = t := by
  obtain rfl : m = n := le_antisymm (le_of_run_stops hn hstop hm) (le_of_run_stops hm hstop' hn)
  exact ⟨rfl, Host.Outcome.next.inj (hm.symm.trans hn)⟩

/-- Settles O42: at `END_PC` and at a refusal alike there is no next state, and a run stops in one state only. -/
theorem runEndsOneWay : Obligations.RunEndsOneWay := by
  rintro n s t ⟨hrun, hend⟩
  have hstop {x : State} (hx : x.pc = x.platform.endPc) (v : State) : step x ≠ .next v := by
    simp [step_at_endPc hx]
  refine ⟨fun m u ⟨hm, hu⟩ => run_stops_unique hrun (hstop hend) hm (hstop hu), fun m u r ⟨hm, hr⟩ => ?_,
    step_at_endPc hend⟩
  obtain ⟨-, rfl⟩ := run_stops_unique hrun (hstop hend) hm (by simp [hr])
  cases (step_at_endPc hend).symm.trans hr

/-! ### The high halves of registers (D2, D3) -/

/-- The low word of a sum is the sum of the low words. -/
theorem storageAddress_of_sameLowHalves {s s' : State} (h : SameLowHalves s s') (i : Instr) :
    storageAddress i s = storageAddress i s' := by
  obtain ⟨-, -, -, -, hlow⟩ := h
  simp only [lowWord] at hlow
  rw [storageAddress, storageAddress]
  cases i with
  | stw rs ra d => simp only [storageSum, BitVec.setWidth_add _ _ (show 32 ≤ 64 by decide), apply_ite, hlow]
  | stwu rs ra d => simp only [storageSum, BitVec.setWidth_add _ _ (show 32 ≤ 64 by decide), hlow]
  | stwux rs ra rb => simp only [storageSum, BitVec.setWidth_add _ _ (show 32 ≤ 64 by decide), hlow]
  | stwx rs ra rb => simp only [storageSum, BitVec.setWidth_add _ _ (show 32 ≤ 64 by decide), apply_ite, hlow]

/-- What two outcomes are that differ in nothing but the high halves of registers. -/
def SameOutcome (o o' : Host.Outcome State Fault Refusal) : Prop :=
  (∃ t t', o = .next t ∧ o' = .next t' ∧ SameLowHalves t t') ∨
  (∃ f, o = .fault f ∧ o' = .fault f) ∨
  (∃ r, o = .refused r ∧ o' = .refused r)

theorem sameOutcome_exec {s s' : State} (h : SameLowHalves s s') (i : Instr) :
    SameOutcome (exec i s) (exec i s') := by
  have hea := storageAddress_of_sameLowHalves h i
  obtain ⟨hpc, hmem, hresv, hplatform, hlow⟩ := h
  obtain ⟨t, t', h, h', hpc', hmem', hresv', hplatform'⟩ | hrefused :=
    exec_alike_outside_regs hpc hmem hresv hplatform hea (hlow _)
  · refine .inl ⟨t, t', h, h', hpc', hmem', hresv', hplatform', fun r => ?_⟩
    rw [lowWord, lowWord, readReg_of_exec_next h, readReg_of_exec_next h', hea]
    split_ifs
    · rfl
    · exact hlow r
  · exact .inr (.inr hrefused)

theorem fetch_congr {s s' : State} (hpc : s.pc = s'.pc) (hmem : s.mem = s'.mem) (hplatform : s.platform = s'.platform) :
    fetch s = fetch s' := by
  simp only [fetch, hpc, hmem, hplatform]

theorem sameOutcome_step {s s' : State} (h : SameLowHalves s s') : SameOutcome (step s) (step s') := by
  have ⟨hpc, hmem, _, hplatform, _⟩ := h
  have hfetch' := fetch_congr hpc hmem hplatform
  by_cases hend : s.pc = s.platform.endPc
  · refine .inr (.inl ⟨_, step_at_endPc hend, ?_⟩)
    rw [step_at_endPc (hpc ▸ hplatform ▸ hend), hpc]
  · have hend' : s'.pc ≠ s'.platform.endPc := hpc ▸ hplatform ▸ hend
    cases hfetch : fetch s with
    | fault f =>
      exact .inr (.inl ⟨f, step_of_fetch_fault hend hfetch, step_of_fetch_fault hend' (hfetch' ▸ hfetch)⟩)
    | refused r =>
      exact .inr (.inr ⟨r, step_of_fetch_refused hend hfetch, step_of_fetch_refused hend' (hfetch' ▸ hfetch)⟩)
    | next w =>
      cases hdecode : decodeWord w with
      | error e =>
        exact .inr (.inr ⟨_, step_of_notInScope hend hfetch hdecode,
          step_of_notInScope hend' (hfetch' ▸ hfetch) hdecode⟩)
      | ok i =>
        rw [step_of_decodeWord hend hfetch hdecode, step_of_decodeWord hend' (hfetch' ▸ hfetch) hdecode]
        exact sameOutcome_exec h i

/-- Settles O45: by induction on the run, in lockstep. -/
theorem highHalvesNeverReachMemory : Obligations.HighHalvesNeverReachMemory := by
  intro n
  change ∀ s s', SameLowHalves s s' → SameOutcome (run n s) (run n s')
  induction n with
  | zero => exact fun s s' h => .inl ⟨s, s', rfl, rfl, h⟩
  | succ n ih =>
    intro s s' h
    obtain ⟨t, t', ht, ht', hsame⟩ | ⟨f, hf, hf'⟩ | ⟨r, hr, hr'⟩ := sameOutcome_step h
    · rw [run_of_step ht, run_of_step ht']
      exact ih t t' hsame
    · exact .inr (.inl ⟨f, run_of_step_fault hf n, run_of_step_fault hf' n⟩)
    · exact .inr (.inr ⟨r, run_of_step_refused hr n, run_of_step_refused hr' n⟩)

end Sys2Proof.Machine
